-- ==== Sys2Proof/Word.lean ====
section
/-! DEFINITION. The word types of the CORE: bytes and register numbers (spec/00_scope.md R5, R7; spec/10_state.md R20). -/

namespace Sys2Proof

/-- One 8-bit unsigned value: a register, a memory cell, the flags register (R5: `REG_WIDTH`, `CELL_WIDTH`, `FL_WIDTH`). -/
abbrev Byte := BitVec 8

/-- The number of a register, 0..7 (R20: `REG_COUNT` is 8). -/
abbrev RegIdx := Fin 8

end Sys2Proof
end

