-- ==== Sys2Proof/Config.lean ====
section
/-! DEFINITION. The implementation parameters of spec/00_scope.md R5, and the fixed sizes. -/

namespace Sys2Proof

/-- `OVERFLOW_POLICY` (R5, R9; 93_implementation_defined.md I1): what happens to a computed value that does not fit 8 bits. -/
inductive OverflowPolicy where
  | validate
  | truncate
deriving DecidableEq, Repr

/-- `OPERAND_FETCH` (R5, R104; 93_implementation_defined.md I2): what a declared operand past address 255 does. -/
inductive OperandFetch where
  | declared
  | zeroFill
deriving DecidableEq, Repr

/-- The three open points of R5 that a model takes as arguments. -/
structure Params where
  overflowPolicy : OverflowPolicy
  operandFetch   : OperandFetch
  /-- `NOP_DECODED` (R5, R181; 93_implementation_defined.md I3). -/
  nopDecoded     : Bool
deriving DecidableEq, Repr

/-- The values R5 gives: `validate` (its default), `declared` and true. -/
def Params.spec : Params :=
  { overflowPolicy := .validate, operandFetch := .declared, nopDecoded := true }

/-- `MEM_SIZE` (R5, R50): addresses 0x00..0xFF. -/
abbrev memSize : Nat := 256

/-- `SP_INDEX` (R5, R21): the stack pointer is register 7. -/
abbrev spIndex : RegIdx := 7

/-- `SP_INIT` (R5, R230 step 3). -/
abbrev spInit : Byte := 0xFF

end Sys2Proof
end

