-- ==== Sys2Proof/Machine/State.lean ====
section
/-! DEFINITION. The state of the CORE (spec/10_state.md R20 to R32) as plain data, and the state after reset. -/

namespace Sys2Proof.Machine

/-- The run state (R25). -/
inductive Status where
  | running
  | halted
deriving DecidableEq, Repr

/-- The four execution-time faults of the CORE with the info each records (R26, R200). Taking one is a NEXT state
(`State.raise`, R207), so these are data of `halt_cause` and not outcomes of a step. -/
inductive CoreFault where
  /-- Decode found none of the twelve opcodes; the info is the byte (R103). -/
  | unknownOpcodeFault (ir : Byte)
  /-- A fetch read outside 0..255; the info is the address (R102, R104). -/
  | memoryBoundsError (address : Nat)
  /-- A register operand byte is 8..255; the info is the byte (R105). -/
  | registerBoundsError (operand : Byte)
  /-- A computed value does not fit a byte under `validate`; the info is the integer (R9, R204). -/
  | valueRangeFault (value : Int)
deriving DecidableEq, Repr

/-- `halt_cause` (R26): none while running, HLT, or the fault that ended the run. -/
inductive HaltCause where
  | none
  | hlt
  | fault (f : CoreFault)
deriving DecidableEq, Repr

/-- The memory: the cells that differ from `Memory.blank`, by rising address. -/
abbrev Memory := List Host.Cell

/-- What a cell that is not listed reads as: memory is zero-initialised (R30, R230 step 1). -/
def Memory.blank : Byte := 0

/-- The canonical form: addresses strictly rise and are below 256 (R50), and no listed cell reads as a blank one. -/
def Memory.wf : Memory → Bool
  | [] => true
  | c :: m => decide (c.1 < memSize) && decide (c.2 ≠ Memory.blank) && m.all (fun d => decide (c.1 < d.1)) && Memory.wf m

/-- The whole machine state: the record of R32, and the parameters of R5, which no step changes. DESIGN CHOICE, safe for
statements about every state, unsafe for a run from reset (log entry 1). -/
structure State where
  /-- The register file; `x[7]` is the stack pointer (R20, R21). -/
  x         : Vector Byte 8
  /-- The program counter, an integer that never wraps (R23). -/
  pc        : Nat
  /-- The flags register: bit 0 E, bit 1 G, bit 2 L (R24). -/
  fl        : Byte
  mem       : Memory
  status    : Status
  haltCause : HaltCause
  /-- The bytes PRN emitted, oldest first (R28). -/
  out       : List Byte
  params    : Params
deriving DecidableEq, Repr

/-- Why a step could stop the model itself. Nothing does: every fault the spec names halts the CORE in a next state
(R207), so this type has no constructor and nobody raises it. Safe: no behaviour is cut short. DEDUCED, log entry 2. -/
inductive Fault where
deriving DecidableEq, Repr

/-- Why an instruction could have no meaning. -/
inductive Refusal where
  /-- An arm of `exec` whose instruction has no meaning yet; no arm raises it. Safe: the run stops where the CORE goes on. -/
  | notModelled (mnemonic : String)
deriving DecidableEq, Repr

/-- The machine right after reset: the launch state of R30 and R230 with an empty image, at the parameter values of R5.
DESIGN CHOICE of the empty image, unsafe for a claim about this run alone (log entries 1 and 9). -/
def State.reset : State :=
  { x := #v[0x00, 0x00, 0x00, 0x00, 0x00, 0x00, 0x00, 0xFF]
    pc := 0
    fl := 0x00
    mem := []
    status := .running
    haltCause := .none
    out := []
    params := Params.spec }

end Sys2Proof.Machine
end

