-- ==== Sys2Proof/Machine/Ops.lean ====
section
/-! DEFINITION. The named operations over registers, memory, output and run state (the primitives of spec/00_scope.md R8 to
R13), with taking a fault as one shared operation (R10, R207). There is no return from a fault (R208). -/

namespace Sys2Proof.Machine

/-- A computation inside one step that may raise a fault (R8: `raise`). -/
abbrev Effect (α : Type) := Except CoreFault α

/-! ## Registers (R11, R20, R21) -/

/-- `x[i]`. -/
def State.reg (s : State) (i : RegIdx) : Byte := s.x.get i

/-- `x[i] <- v`. No register is hardwired (R20). -/
def State.setReg (s : State) (i : RegIdx) (v : Byte) : State := { s with x := s.x.set i v }

/-- `SP`, another name for `x[7]` (R21). -/
def State.sp (s : State) : Byte := s.reg spIndex

/-- `pc <- target` (R13): every handler sets the next value itself (R109). -/
def State.setPc (s : State) (target : Nat) : State := { s with pc := target }

/-- `FL <- v` (R24): the whole register. -/
def State.setFl (s : State) (v : Byte) : State := { s with fl := v }

/-- `emit(v)`: append a byte to the output channel (R8, R28). -/
def State.emit (s : State) (v : Byte) : State := { s with out := s.out ++ [v] }

/-! ## Memory (R12, R50, R51, R55) -/

/-- The byte at an address; a cell that is not listed reads as `Memory.blank`. -/
def Memory.read : Memory → Nat → Byte
  | [], _ => Memory.blank
  | c :: m, a => if c.1 = a then c.2 else Memory.read m a

/-- Take an address out of the list: its cell reads as blank. -/
def Memory.erase (m : Memory) (a : Nat) : Memory := m.filter (fun c => decide (c.1 ≠ a))

/-- Put a cell in its place by rising address. -/
def Memory.insert : Memory → Nat → Byte → Memory
  | [], a, v => [(a, v)]
  | c :: m, a, v => if a < c.1 then (a, v) :: c :: m else c :: Memory.insert m a v

/-- Store a byte, keeping the canonical form: a blank byte is not listed. -/
def Memory.write (m : Memory) (a : Nat) (v : Byte) : Memory :=
  if v = Memory.blank then m.erase a else (m.erase a).insert a v

/-- `MemRead(a, 1)` (R8, R51): out of 0..255 it raises MemoryBoundsError. -/
def State.memRead (s : State) (a : Nat) : Effect Byte :=
  if a < memSize then .ok (s.mem.read a) else .error (.memoryBoundsError a)

/-- `mem <- m`: the memory alone. -/
def State.setMem (s : State) (m : Memory) : State := { s with mem := m }

/-- `MemWrite(a, 1, v)` (R8, R51): out of 0..255 it raises MemoryBoundsError. -/
def State.memWrite (s : State) (a : Nat) (v : Byte) : Effect State :=
  if a < memSize then .ok (s.setMem (s.mem.write a v)) else .error (.memoryBoundsError a)

/-- Store bytes at increasing addresses, those past 255 left out (there is no cell there, R50). -/
def Memory.storeBytes : Memory → Nat → List Byte → Memory
  | m, _, [] => m
  | m, a, b :: bs => Memory.storeBytes (if a < memSize then m.write a b else m) (a + 1) bs

/-! ## Halting and faults (R8, R10, R25, R26, R207) -/

/-- `halt(cause)`: `status` and `halt_cause`, nothing else. -/
def State.halt (s : State) (cause : HaltCause) : State := { s with status := .halted, haltCause := cause }

/-- Taking a fault (R10, R207): the CORE halts with its cause; no register, cell, flag, output or `pc` changes. -/
def State.raise (s : State) (f : CoreFault) : State := s.halt (.fault f)

/-- The end of a step's work (R10, R107): commit every write at once, or on a fault discard them all and take the fault. -/
def commit (s : State) (effect : Effect State) : Host.Outcome State Fault Refusal :=
  match effect with
  | .ok t => .next t
  | .error f => .next (s.raise f)

/-- A step in HALTED (R101, R216): no instruction runs and the state is kept. DESIGN CHOICE, safe: a total
step says so by answering the same state (log entry 3). -/
def stayHalted (s : State) : Host.Outcome State Fault Refusal := .next s

/-- The kind code of `halt_cause` (R26, R200; the numbers are the spec's own, 93 I13). -/
def HaltCause.code : HaltCause → Nat
  | .none => 0
  | .hlt => 1
  | .fault (.unknownOpcodeFault _) => 2
  | .fault (.memoryBoundsError _) => 3
  | .fault (.registerBoundsError _) => 4
  | .fault (.valueRangeFault _) => 5

/-- The info of `halt_cause` (R26): the byte, the address, the operand byte or the integer. -/
def HaltCause.info : HaltCause → Option Int
  | .none => Option.none
  | .hlt => Option.none
  | .fault (.unknownOpcodeFault ir) => some ir.toNat
  | .fault (.memoryBoundsError a) => some a
  | .fault (.registerBoundsError b) => some b.toNat
  | .fault (.valueRangeFault v) => some v

end Sys2Proof.Machine
end

