-- ==== Sys2Proof/Machine/Operands.lean ====
section
/-! DEFINITION. Register operands (spec/30_encoding.md R72, spec/40_fetch_decode_dispatch.md R105), fitting a computed value
to a byte (spec/00_scope.md R9), and the stack and return-address arithmetic (R14). -/

namespace Sys2Proof.Machine

/-- Register-operand validation (R105), the bounds check of `getRegister` and `setRegister` (R11): a byte of 0..7 names that
register, any other raises RegisterBoundsError. `State.reg` and `State.setReg` then read and write it. -/
def regOperand (b : Byte) : Effect RegIdx :=
  if h : b.toNat < 8 then .ok ⟨b.toNat, h⟩ else .error (.registerBoundsError b)

/-- `fit8(v)` (R9): a value in 0..255 as it is; else ValueRangeFault under `validate`, v mod 256 under `truncate`. -/
def fit8 (policy : OverflowPolicy) (v : Int) : Effect Byte :=
  if 0 ≤ v ∧ v ≤ 255 then .ok (BitVec.ofInt 8 v)
  else
    match policy with
    | .validate => .error (.valueRangeFault v)
    | .truncate => .ok (BitVec.ofInt 8 v)

/-- `spDec(sp) = fit8(sp - 1)` (R14). -/
def spDec (policy : OverflowPolicy) (sp : Byte) : Effect Byte := fit8 policy ((sp.toNat : Int) - 1)

/-- `spInc(sp) = fit8(sp + 1)` (R14). -/
def spInc (policy : OverflowPolicy) (sp : Byte) : Effect Byte := fit8 policy ((sp.toNat : Int) + 1)

/-- `retAddr(pc) = fit8(pc + 2)` (R14, R170). -/
def retAddr (policy : OverflowPolicy) (pc : Nat) : Effect Byte := fit8 policy ((pc : Int) + 2)

end Sys2Proof.Machine
end

