-- ==== Sys2Proof/Syntax.lean ====
section
/-! DEFINITION. The twelve instructions of spec/30_encoding.md R80, in the table's order. A register operand is its whole
byte (R72): a byte of 8..255 names no register and faults when the instruction runs (R105), so the term holds the byte. -/

namespace Sys2Proof

/-- One constructor per row of the opcode table; operands in the byte order of R71. -/
inductive Instr where
  | ldi  (r imm : Byte)
  | prn  (r : Byte)
  | cmp  (a b : Byte)
  | jmp  (r : Byte)
  | jeq  (r : Byte)
  | jne  (r : Byte)
  | push (r : Byte)
  | pop  (r : Byte)
  | call (r : Byte)
  | ret
  | hlt
  | nop
deriving DecidableEq, Repr

/-- The length in bytes, the opcode byte included (R81). -/
def Instr.length : Instr → Nat
  | .ldi _ _ | .cmp _ _ => 3
  | .prn _ | .jmp _ | .jeq _ | .jne _ | .push _ | .pop _ | .call _ => 2
  | .ret | .hlt | .nop => 1

/-- The declared register operands in field order: `regfields` of R100. -/
def Instr.regOperands : Instr → List Byte
  | .ldi r _ => [r]
  | .cmp a b => [a, b]
  | .prn r | .jmp r | .jeq r | .jne r | .push r | .pop r | .call r => [r]
  | .ret | .hlt | .nop => []

end Sys2Proof
end

