-- ==== Sys2Proof/Machine/CallReturn.lean ====
section
/-! DEFINITION. CALL and RET (spec/45_call_return.md), on the stack that PUSH and POP use (R160). -/

namespace Sys2Proof.Machine

/-- CALL r (R170): decrement SP, store the return address there, jump to `x[r]`, read after the decrement. -/
def execCall (r : Byte) (s : State) : Host.Outcome State Fault Refusal :=
  commit s do
    let i ← regOperand r
    let sp ← spDec s.params.overflowPolicy s.sp
    let t := s.setReg spIndex sp
    let ra ← retAddr s.params.overflowPolicy s.pc
    let u ← t.memWrite t.sp.toNat ra
    .ok (u.setPc (u.reg i).toNat)

/-- RET (R171): the byte at SP is the target, then SP is incremented. -/
def execRet (s : State) : Host.Outcome State Fault Refusal :=
  commit s do
    let target ← s.memRead s.sp.toNat
    let sp ← spInc s.params.overflowPolicy s.sp
    .ok ((s.setReg spIndex sp).setPc target.toNat)

end Sys2Proof.Machine
end

