-- ==== Sys2Proof/Machine/Flags.lean ====
section
/-! DEFINITION. The compare unit and the bits of FL (spec/42_compare.md R140; spec/10_state.md R24). -/

namespace Sys2Proof.Machine

/-- `compare(a, b)` (R140): unsigned, exactly one of E (0x01), G (0x02) and L (0x04). -/
def compare (a b : Byte) : Byte :=
  if a.toNat = b.toNat then 0x01
  else if a.toNat > b.toNat then 0x02
  else 0x04

/-- `FL[0]`, the E flag (R24, R6). -/
def State.flagE (s : State) : Bool := s.fl.getLsbD 0

/-- `FL[1]`, the G flag (R24). -/
def State.flagG (s : State) : Bool := s.fl.getLsbD 1

/-- `FL[2]`, the L flag (R24). -/
def State.flagL (s : State) : Bool := s.fl.getLsbD 2

end Sys2Proof.Machine
end

