-- ==== Sys2Proof/Machine/Compare.lean ====
section
/-! DEFINITION. CMP (spec/42_compare.md). -/

namespace Sys2Proof.Machine

/-- CMP a, b (R141); `a` is validated before `b` (R105). -/
def execCmp (a b : Byte) (s : State) : Host.Outcome State Fault Refusal :=
  commit s do
    let i ← regOperand a
    let j ← regOperand b
    .ok ((s.setFl (compare (s.reg i) (s.reg j))).setPc (s.pc + 3))

end Sys2Proof.Machine
end

