-- ==== Sys2Proof/Machine/Control.lean ====
section
/-! DEFINITION. HLT and NOP (spec/46_control.md). -/

namespace Sys2Proof.Machine

/-- HLT (R180): halt with cause HLT; `pc` stays at the HLT. -/
def execHlt (s : State) : Host.Outcome State Fault Refusal :=
  commit s (.ok (s.halt .hlt))

/-- NOP (R181). -/
def execNop (s : State) : Host.Outcome State Fault Refusal :=
  commit s (.ok (s.setPc (s.pc + 1)))

end Sys2Proof.Machine
end

