-- ==== Sys2Proof/Machine/Jumps.lean ====
section
/-! DEFINITION. JMP, JEQ and JNE (spec/43_jumps.md). The operand is validated whether or not the branch is taken (R105). -/

namespace Sys2Proof.Machine

/-- JMP r (R150). -/
def execJmp (r : Byte) (s : State) : Host.Outcome State Fault Refusal :=
  commit s do
    let i ← regOperand r
    .ok (s.setPc (s.reg i).toNat)

/-- JEQ r (R151). -/
def execJeq (r : Byte) (s : State) : Host.Outcome State Fault Refusal :=
  commit s do
    let i ← regOperand r
    .ok (s.setPc (if s.flagE then (s.reg i).toNat else s.pc + 2))

/-- JNE r (R152). -/
def execJne (r : Byte) (s : State) : Host.Outcome State Fault Refusal :=
  commit s do
    let i ← regOperand r
    .ok (s.setPc (if s.flagE then s.pc + 2 else (s.reg i).toNat))

end Sys2Proof.Machine
end

