-- ==== Sys2Proof/Machine/LoadPrint.lean ====
section
/-! DEFINITION. LDI and PRN (spec/41_load_and_print.md). Each meaning validates its register operands first (R105), as step 4
of R100 does before the handler; the operand bytes have been fetched. DEDUCED, safe (log entry 4). -/

namespace Sys2Proof.Machine

/-- LDI r, imm (R130). -/
def execLdi (r imm : Byte) (s : State) : Host.Outcome State Fault Refusal :=
  commit s do
    let i ← regOperand r
    .ok ((s.setReg i imm).setPc (s.pc + 3))

/-- PRN r (R131). -/
def execPrn (r : Byte) (s : State) : Host.Outcome State Fault Refusal :=
  commit s do
    let i ← regOperand r
    .ok ((s.emit (s.reg i)).setPc (s.pc + 2))

end Sys2Proof.Machine
end

