-- ==== Sys2Proof/Machine/Stack.lean ====
section
/-! DEFINITION. PUSH and POP (spec/44_stack.md). Each line sees the values of the lines before it (R10), so R7 as an operand
is the stack pointer in mid-instruction (90_conflicts.md C7). -/

namespace Sys2Proof.Machine

/-- PUSH r (R161): decrement SP, then store `x[r]`, read after the decrement, at the new SP. -/
def execPush (r : Byte) (s : State) : Host.Outcome State Fault Refusal :=
  commit s do
    let i ← regOperand r
    let sp ← spDec s.params.overflowPolicy s.sp
    let t := s.setReg spIndex sp
    let u ← t.memWrite t.sp.toNat (t.reg i)
    .ok (u.setPc (s.pc + 2))

/-- POP r (R162): `x[r]` takes the byte at SP, then SP, read after that write, is incremented. -/
def execPop (r : Byte) (s : State) : Host.Outcome State Fault Refusal :=
  commit s do
    let i ← regOperand r
    let v ← s.memRead s.sp.toNat
    let t := s.setReg i v
    let sp ← spInc s.params.overflowPolicy t.sp
    .ok ((t.setReg spIndex sp).setPc (s.pc + 2))

end Sys2Proof.Machine
end

