-- ==== Sys2Proof/Decode.lean ====
section
/-! DEFINITION. The opcode table (spec/30_encoding.md R71, R80), the decoder, total on any bytes and rejecting by name
(R73, R84), and the encoder. -/

namespace Sys2Proof

/-- The four formats of R71, each with the instruction that its operand bytes make. -/
inductive Format where
  | z  (i : Instr)
  | r  (make : Byte → Instr)
  | ri (make : Byte → Byte → Instr)
  | rr (make : Byte → Byte → Instr)

/-- A row of the opcode map: the whole opcode byte (R73) and the format. -/
structure OpcodeRow where
  pattern : Byte
  format  : Format

/-- The opcode map of R80, in the source's order, with the binary patterns of its first column (bit 7 first, R6). -/
def opcodeTable : List OpcodeRow :=
  [ ⟨0b10000010, .ri .ldi⟩,
    ⟨0b01000111, .r .prn⟩,
    ⟨0b10100111, .rr .cmp⟩,
    ⟨0b01010100, .r .jmp⟩,
    ⟨0b01010101, .r .jeq⟩,
    ⟨0b01010110, .r .jne⟩,
    ⟨0b01000101, .r .push⟩,
    ⟨0b01000110, .r .pop⟩,
    ⟨0b01010000, .r .call⟩,
    ⟨0b00010001, .z .ret⟩,
    ⟨0b00000001, .z .hlt⟩,
    ⟨0b00000000, .z .nop⟩ ]

/-- Decode an opcode byte by its whole value (R73). With `NOP_DECODED` false, 0x00 is unknown (93 I3). -/
def selectRow (nopDecoded : Bool) (ir : Byte) : Option OpcodeRow :=
  if ir = 0 ∧ nopDecoded = false then none
  else opcodeTable.find? (fun row => row.pattern == ir)

/-- Why bytes do not decode. -/
inductive DecodeError where
  /-- No opcode byte is there. -/
  | noOpcode
  /-- The opcode byte is none of the twelve (R84). -/
  | unknownOpcode (ir : Byte)
  /-- The first declared operand byte is missing. -/
  | noOperandA
  /-- The second declared operand byte is missing. -/
  | noOperandB
deriving DecidableEq, Repr

/-- Read an opcode's declared operands off the bytes after it (R70, R83); the rest belongs to the next instruction (R87). -/
def Format.decode : Format → List Byte → Except DecodeError (Instr × List Byte)
  | .z i, rest => .ok (i, rest)
  | .r make, a :: rest => .ok (make a, rest)
  | .ri make, a :: b :: rest => .ok (make a b, rest)
  | .rr make, a :: b :: rest => .ok (make a b, rest)
  | .r _, [] => .error .noOperandA
  | .ri _, [] => .error .noOperandA
  | .rr _, [] => .error .noOperandA
  | .ri _, [_] => .error .noOperandB
  | .rr _, [_] => .error .noOperandB

/-- The decoder: the instruction at the head of the bytes and the bytes after it, or the reason there is none. -/
def decode (nopDecoded : Bool) : List Byte → Except DecodeError (Instr × List Byte)
  | [] => .error .noOpcode
  | ir :: rest =>
    match selectRow nopDecoded ir with
    | none => .error (.unknownOpcode ir)
    | some row => row.format.decode rest

/-- The opcode byte of an instruction (R80, hexadecimal column). -/
def Instr.opcode : Instr → Byte
  | .ldi _ _ => 0x82
  | .prn _   => 0x47
  | .cmp _ _ => 0xA7
  | .jmp _   => 0x54
  | .jeq _   => 0x55
  | .jne _   => 0x56
  | .push _  => 0x45
  | .pop _   => 0x46
  | .call _  => 0x50
  | .ret     => 0x11
  | .hlt     => 0x01
  | .nop     => 0x00

/-- The operand bytes of an instruction, in the order of R71. -/
def Instr.operands : Instr → List Byte
  | .ldi r imm => [r, imm]
  | .cmp a b => [a, b]
  | .prn r | .jmp r | .jeq r | .jne r | .push r | .pop r | .call r => [r]
  | .ret | .hlt | .nop => []

/-- The encoder: the opcode byte, then the operands, at increasing addresses (R70). -/
def encode (i : Instr) : List Byte := i.opcode :: i.operands

/-- The three bytes of a table word of `nbits` bits, the first byte its least significant one; bits above `nbits` are zero. -/
def tableBytes (nbits w : Nat) : List Byte :=
  let v := w % 2 ^ nbits
  [BitVec.ofNat 8 v, BitVec.ofNat 8 (v / 256), BitVec.ofNat 8 (v / 65536)]

/-- The instruction the decoder reads from a table word, at R5's value of `NOP_DECODED`. -/
def decodeTableWord (nbits w : Nat) : Option Instr :=
  match decode Params.spec.nopDecoded (tableBytes nbits w) with
  | .ok (i, _) => some i
  | .error _ => none

end Sys2Proof
end

