-- ==== Sys2Proof/Machine/Fetch.lean ====
section
/-! DEFINITION. Fetch, decode and operand fetch (spec/40_fetch_decode_dispatch.md R100 steps 1 to 3, R102 to R104). The latches
IR, operand_a and operand_b are locals of these functions (spec/10_state.md R27). DEDUCED, safe: nothing
reads them later (log entry 7). -/

namespace Sys2Proof.Machine

/-- The operand byte at `pc + k` (R104). Past 255, `declared` raises MemoryBoundsError and `zero_fill` reads 0 (93 I2; what follows
from it is DEDUCED, unsafe, log entry 10). -/
def State.fetchOperand (s : State) (k : Nat) : Effect Byte :=
  match s.params.operandFetch with
  | .declared => s.memRead (s.pc + k)
  | .zeroFill => if s.pc + k < memSize then s.memRead (s.pc + k) else .ok 0

/-- Read the operands a format declares, and only those, in order (R104). -/
def State.fetchOperands (s : State) : Format → Effect Instr
  | .z i => .ok i
  | .r make => do
    let a ← s.fetchOperand 1
    .ok (make a)
  | .ri make => do
    let a ← s.fetchOperand 1
    let b ← s.fetchOperand 2
    .ok (make a b)
  | .rr make => do
    let a ← s.fetchOperand 1
    let b ← s.fetchOperand 2
    .ok (make a b)

/-- Fetch the opcode byte (R102), decode it (R103), fetch its operands (R104). -/
def State.fetchInstr (s : State) : Effect Instr := do
  let ir ← s.memRead s.pc
  match selectRow s.params.nopDecoded ir with
  | none => .error (.unknownOpcodeFault ir)
  | some row => s.fetchOperands row.format

end Sys2Proof.Machine
end

