-- ==== Sys2Proof/Machine/Step.lean ====
section
/-! DEFINITION. One step (spec/40_fetch_decode_dispatch.md R100, R101). -/

namespace Sys2Proof.Machine

/-- One step: in RUNNING, fetch, decode and run one instruction, or take the fault that fetching or decoding raised; in
HALTED nothing happens (R101). -/
def step (s : State) : Host.Outcome State Fault Refusal :=
  match s.status with
  | .halted => stayHalted s
  | .running =>
    match s.fetchInstr with
    | .error f => commit s (.error f)
    | .ok i => exec i s

/-- The state with a table word's bytes stored at `pc`, where the next step fetches, and RUNNING, which a step needs.
DESIGN CHOICE, safe (log entry 6). -/
def State.withFetchWord (s : State) (nbits w : Nat) : State :=
  { s with mem := s.mem.storeBytes s.pc (tableBytes nbits w), status := .running }

end Sys2Proof.Machine
end

