-- ==== Sys2Proof/Machine/Launch.lean ====
section
/-! DEFINITION. The launch sequence (spec/70_reset_and_hazards.md R230, R234): construct, load, set SP, run. -/

namespace Sys2Proof.Machine

/-- Step 1, construct: everything zero. No step is enabled until `start`, so `status` is HALTED. DESIGN CHOICE, safe
(log entry 8). -/
def State.construct (p : Params) : State :=
  { x := Vector.replicate 8 0, pc := 0, fl := 0, mem := [], status := .halted, haltCause := .none, out := [], params := p }

/-- Step 2, load: the image bytes to mem[0], mem[1], …; an image of more than 256 bytes cannot be loaded (R234). -/
def State.load (s : State) (image : List Byte) : Option State :=
  if image.length ≤ memSize then some (s.setMem (s.mem.storeBytes 0 image)) else none

/-- Steps 3 and 4: SP <- 0xFF, then RUNNING. -/
def State.start (s : State) : State := { s.setReg spIndex spInit with status := .running }

/-- The launch state of an image, or none where the image cannot be loaded and the CORE is not launched (R205, R234). -/
def State.launch (p : Params) (image : List Byte) : Option State :=
  ((State.construct p).load image).map State.start

end Sys2Proof.Machine
end

