-- ==== Sys2Proof/WellFormed.lean ====
section
/-! DEFINITION. When an instruction is legal (spec/30_encoding.md R85, R86): every register operand byte is 0..7.
An immediate is legal at every value, and an ill-formed instruction still decodes: it raises RegisterBoundsError when it runs. -/

namespace Sys2Proof

/-- Every declared register operand names a register (R72, R85). -/
def Instr.wellFormed (i : Instr) : Bool :=
  i.regOperands.all (fun b => decide (b.toNat < 8))

end Sys2Proof
end

