-- ==== Sys2Proof/Safety.lean ====
section
/-! DEFINITION. The terms claims use: the invariant of a state, frames, and the spec's tables of faults (R108, R204) written over
the raw bytes of memory, apart from the decoder and the meanings. -/

namespace Sys2Proof.Machine

/-! ## The invariant -/

/-- The legal values of FL (R24, R142). -/
def FlLegal (fl : Byte) : Prop := fl = 0x00 ∨ fl = 0x01 ∨ fl = 0x02 ∨ fl = 0x04

/-- The largest `pc` a step commits: 256 (R23). Zero-filled operands (93 I2) let a 3-byte instruction start at 255
(DEDUCED, unsafe, log entry 10). -/
def pcMax (p : Params) : Nat :=
  match p.operandFetch with
  | .declared => 256
  | .zeroFill => 258

/-- The number of operand bytes an opcode byte declares (R80, R81); none for the 244 unknown bytes (R84). -/
def declaredOperands (ir : Byte) : Option Nat :=
  if ir ∈ ([0x82, 0xA7] : List Byte) then some 2
  else if ir ∈ ([0x47, 0x54, 0x55, 0x56, 0x45, 0x46, 0x50] : List Byte) then some 1
  else if ir ∈ ([0x11, 0x01, 0x00] : List Byte) then some 0
  else none

/-- The info values of R26: an unknown opcode byte, an address from 256 up to the largest `pc`, an operand byte of 8..255,
an integer that a byte does not hold (257 only where a CALL at 255 has its operand zero-filled). -/
def CauseLegal (p : Params) : HaltCause → Prop
  | .none => True
  | .hlt => True
  | .fault (.unknownOpcodeFault ir) => declaredOperands ir = none ∨ (ir = 0x00 ∧ p.nopDecoded = false)
  | .fault (.memoryBoundsError a) => 256 ≤ a ∧ a ≤ pcMax p
  | .fault (.registerBoundsError b) => 8 ≤ b.toNat
  | .fault (.valueRangeFault v) =>
    p.overflowPolicy = .validate ∧ (v = -1 ∨ v = 256 ∨ (v = 257 ∧ p.operandFetch = .zeroFill))

/-- What holds of every state from launch on. -/
structure State.Inv (s : State) : Prop where
  memWf       : s.mem.wf = true
  flLegal     : FlLegal s.fl
  pcInRange   : s.pc ≤ pcMax s.params
  noneRunning : s.status = .running ↔ s.haltCause = .none
  causeLegal  : CauseLegal s.params s.haltCause

/-! ## Frames -/

/-- Every register outside `regs`, every cell outside `cells` and the parameters keep their values. -/
structure Kept (regs : List RegIdx) (cells : List Nat) (s t : State) : Prop where
  regs   : ∀ i, i ∉ regs → t.reg i = s.reg i
  cells  : ∀ a, a ∉ cells → t.mem.read a = s.mem.read a
  params : t.params = s.params

/-- The run state is kept. -/
def SameRun (s t : State) : Prop := t.status = s.status ∧ t.haltCause = s.haltCause

/-- The state a fault leaves (R207): `s` but for `status` and `halt_cause`. -/
def State.faulted (s : State) (f : CoreFault) : State := { s with status := .halted, haltCause := .fault f }

/-- The state with another `OVERFLOW_POLICY` (R5). -/
def State.withPolicy (s : State) (policy : OverflowPolicy) : State :=
  { s with params := { s.params with overflowPolicy := policy } }

/-- The state with one cell overwritten. -/
def State.poke (s : State) (a : Nat) (v : Byte) : State := { s with mem := s.mem.write a v }

/-! ## Encoded operands and bytes in memory -/

/-- The operand byte that names a register. -/
def regByte (i : RegIdx) : Byte := BitVec.ofNat 8 i.val

/-- The `n` bytes of memory from an address up. -/
def bytesAt (m : Memory) (a : Nat) : Nat → List Byte
  | 0 => []
  | n + 1 => m.read a :: bytesAt m (a + 1) n

/-- The opcode byte at `pc`. -/
def State.opcodeByte (s : State) : Byte := s.mem.read s.pc

/-- The first and the second byte after the opcode byte. -/
def State.byteA (s : State) : Byte := s.mem.read (s.pc + 1)
def State.byteB (s : State) : Byte := s.mem.read (s.pc + 2)

/-! ## The order of fault checks (R108), with the list of value-range faults (R204) -/

/-- The list of R204: the value that leaves 0..255, by the instruction at `pc`, under `validate`. -/
def State.rangeFault (s : State) : Option Int :=
  if s.params.overflowPolicy = .truncate then none
  else if s.opcodeByte = 0x45 ∧ s.reg 7 = 0x00 then some (-1)
  else if s.opcodeByte = 0x50 ∧ s.reg 7 = 0x00 then some (-1)
  else if s.opcodeByte = 0x50 ∧ s.pc = 254 then some 256
  else if s.opcodeByte = 0x46 ∧ s.byteA ≠ 7 ∧ s.reg 7 = 0xFF then some 256
  else if s.opcodeByte = 0x46 ∧ s.byteA = 7 ∧ s.mem.read (s.reg 7).toNat = 0xFF then some 256
  else if s.opcodeByte = 0x11 ∧ s.reg 7 = 0xFF then some 256
  else none

/-- The first fault of the order of R108 that holds, items 1 to 7. -/
def State.firstFault (s : State) : Option CoreFault :=
  if s.pc > 255 then some (.memoryBoundsError s.pc)
  else
    match declaredOperands s.opcodeByte with
    | none => some (.unknownOpcodeFault s.opcodeByte)
    | some n =>
      if 1 ≤ n ∧ s.pc + 1 > 255 then some (.memoryBoundsError (s.pc + 1))
      else if 2 ≤ n ∧ s.pc + 2 > 255 then some (.memoryBoundsError (s.pc + 2))
      else if 1 ≤ n ∧ 8 ≤ s.byteA.toNat then some (.registerBoundsError s.byteA)
      else if s.opcodeByte = 0xA7 ∧ 8 ≤ s.byteB.toNat then some (.registerBoundsError s.byteB)
      else s.rangeFault.map .valueRangeFault

end Sys2Proof.Machine
end

