-- ==== Sys2Proof/Certificates/Slice0/Obligations.lean ====
section
/-! DEFINITION. The statements for the provers. A docstring names the rule of spec/ a statement formalises; where the spec marks
the rule as its own decision or derivation (D<n>), or the model chose (log entry <n>), it says so. -/

open Sys2Proof Sys2Proof.Machine

/-! ## Encoding -/

/-- The twelve opcode bytes of the opcode map, written out bit by bit, with their operands in byte order (30_encoding.md 2). -/
def Obligations.OpcodeBytesDecodeToTheirInstructions : Prop :=
  ∀ a b : Byte,
    decode true [0b10000010, a, b] = .ok (.ldi a b, []) ∧ decode true [0b01000111, a] = .ok (.prn a, []) ∧
    decode true [0b10100111, a, b] = .ok (.cmp a b, []) ∧ decode true [0b01010100, a] = .ok (.jmp a, []) ∧
    decode true [0b01010101, a] = .ok (.jeq a, []) ∧ decode true [0b01010110, a] = .ok (.jne a, []) ∧
    decode true [0b01000101, a] = .ok (.push a, []) ∧ decode true [0b01000110, a] = .ok (.pop a, []) ∧
    decode true [0b01010000, a] = .ok (.call a, []) ∧ decode true [0b00010001] = .ok (.ret, []) ∧
    decode true [0b00000001] = .ok (.hlt, []) ∧ decode true [0b00000000] = .ok (.nop, [])

/-- Bytes decode to an instruction, with a rest, exactly when they are its encoding followed by that rest: decoding an encoded
instruction gives it back at every operand value, legal or not, no bit of a word is dropped, and no word has two meanings.
NOP alone needs `NOP_DECODED`. -/
def Obligations.DecodeIsTheInverseOfEncode : Prop :=
  ∀ (nopDecoded : Bool) (bytes : List Byte) (i : Instr) (rest : List Byte),
    decode nopDecoded bytes = .ok (i, rest) ↔ bytes = encode i ++ rest ∧ (i = .nop → nopDecoded = true)

/-! ## The step: fetch, decode, dispatch -/

/-- When the bytes at `pc`, all of them in memory, decode to an instruction, the step is `exec` of it at that state. -/
def Obligations.StepRunsTheDecodedInstruction : Prop :=
  ∀ (s : State) (n : Nat) (i : Instr) (rest : List Byte), s.status = .running → s.pc + n ≤ 256 →
    decode s.params.nopDecoded (bytesAt s.mem s.pc n) = .ok (i, rest) → step s = exec i s

/-- Under `zero_fill` (93 I2), operand bytes past 255 are 0 and the instruction runs. -/
def Obligations.ZeroFilledOperandsRunTheInstruction : Prop :=
  ∀ (s : State) (i : Instr) (rest : List Byte), s.status = .running → s.params.operandFetch = .zeroFill → s.pc ≤ 255 →
    decode s.params.nopDecoded (bytesAt s.mem s.pc (256 - s.pc) ++ [0, 0]) = .ok (i, rest) → step s = exec i s

/-- In HALTED no step changes anything (R101, D20); that the step answers the same state is the model's form (log entry 3). -/
def Obligations.HaltedStepKeepsTheState : Prop :=
  ∀ s : State, s.status = .halted → step s = .next s

/-- Every step answers a next state: no fault of the CORE stops the model (log entry 2). -/
def Obligations.StepAlwaysAnswersANextState : Prop :=
  ∀ s : State, ∃ t, step s = .next t

/-- A fetch at `pc` past 255 raises MemoryBoundsError(pc) (R102, D2). -/
def Obligations.FetchPastTheTopHalts : Prop :=
  ∀ s : State, s.status = .running → 256 ≤ s.pc → step s = .next (s.faulted (.memoryBoundsError s.pc))

/-- A declared operand past 255 raises MemoryBoundsError(256), whatever the opcode and its other bytes (R104, D3). -/
def Obligations.OperandPastTheTopHalts : Prop :=
  ∀ (s : State) (n : Nat), s.status = .running → s.params.operandFetch = .declared → s.pc ≤ 255 →
    declaredOperands s.opcodeByte = some n → 256 ≤ s.pc + n → step s = .next (s.faulted (.memoryBoundsError 256))

/-- R103: an opcode byte equal to none of the twelve patterns, at any `pc` of memory (no operand byte is read, so none can
fault), halts with that byte; every other piece of state keeps its value. -/
def Obligations.UnknownOpcodeHaltsWithTheByte : Prop :=
  ∀ s : State, s.status = .running → s.pc ≤ 255 →
    s.opcodeByte ∉ ([0x82, 0x47, 0xA7, 0x54, 0x55, 0x56, 0x45, 0x46, 0x50, 0x11, 0x01, 0x00] : List Byte) →
    step s = .next { s with status := .halted, haltCause := .fault (.unknownOpcodeFault s.opcodeByte) }

/-- With `NOP_DECODED` false, 0x00 is an unknown opcode (93 I3, D4). -/
def Obligations.UndecodedNopIsUnknown : Prop :=
  ∀ s : State, s.status = .running → s.params.nopDecoded = false → s.pc ≤ 255 → s.opcodeByte = 0x00 →
    step s = .next (s.faulted (.unknownOpcodeFault 0x00))

/-- The first declared register operand of 8..255 in field order halts, before anything else the instruction does (R105, D5). -/
def Obligations.IllegalRegisterOperandHalts : Prop :=
  ∀ (i : Instr) (s : State) (b : Byte), i.regOperands.find? (fun r => decide (8 ≤ r.toNat)) = some b →
    exec i s = .next (s.faulted (.registerBoundsError b))

/-- A handler whose register operands are legal raises only ValueRangeFault (R106), only under `validate`, and only in PUSH,
POP, CALL and RET (R204, D6). -/
def Obligations.HandlersRaiseOnlyRangeFaults : Prop :=
  ∀ (i : Instr) (s t : State), i.wellFormed = true → exec i s = .next t →
    match i with
    | .push _ | .pop _ | .call _ | .ret =>
      SameRun s t ∨ (s.params.overflowPolicy = .validate ∧ ∃ v, (v < 0 ∨ 255 < v) ∧ t = s.faulted (.valueRangeFault v))
    | .hlt => t.status = .halted ∧ t.haltCause = .hlt
    | .ldi _ _ | .prn _ | .cmp _ _ | .jmp _ | .jeq _ | .jne _ | .nop => SameRun s t

/-- R108 and R204 (D6, D7): the step takes the first fault of the order, read off the raw bytes; where there is none it
runs on or is the HLT. -/
def Obligations.StepTakesTheFirstFaultOfTheOrder : Prop :=
  ∀ s : State, s.status = .running → s.params.operandFetch = .declared → s.params.nopDecoded = true →
    (∀ f, s.firstFault = some f → step s = .next (s.faulted f)) ∧
    (s.firstFault = none → ∃ t, step s = .next t ∧
      if s.opcodeByte = 0x01 then t.status = .halted ∧ t.haltCause = .hlt else SameRun s t)

/-- A step that ends in a fault commits `status` and `halt_cause` and nothing else (R10, R207, D8). -/
def Obligations.FaultChangesOnlyStatusAndCause : Prop :=
  ∀ (s t : State) (f : CoreFault), s.haltCause = .none → step s = .next t → t.haltCause = .fault f →
    t = { s with status := .halted, haltCause := .fault f }

/-! ## Each instruction's rule whole, at the step: encoding, operands, effect, faults -/

/-- R130 (the operand faults are those of D3 and D5). -/
def Obligations.LdiStep : Prop :=
  ∀ s : State, s.status = .running → s.params.operandFetch = .declared → s.pc ≤ 255 → s.opcodeByte = 0b10000010 →
    step s = .next (
      if s.pc = 255 then s.faulted (.memoryBoundsError (s.pc + 1))
      else if s.pc = 254 then s.faulted (.memoryBoundsError (s.pc + 2))
      else if h : s.byteA.toNat < 8 then { s with x := s.x.set s.byteA.toNat s.byteB h, pc := s.pc + 3 }
      else s.faulted (.registerBoundsError s.byteA))

/-- R131. -/
def Obligations.PrnStep : Prop :=
  ∀ s : State, s.status = .running → s.params.operandFetch = .declared → s.pc ≤ 255 → s.opcodeByte = 0b01000111 →
    step s = .next (
      if s.pc = 255 then s.faulted (.memoryBoundsError 256)
      else if h : s.byteA.toNat < 8 then { s with out := s.out ++ [s.reg ⟨s.byteA.toNat, h⟩], pc := s.pc + 2 }
      else s.faulted (.registerBoundsError s.byteA))

/-- R141, with the flags of R140: E where equal, G where `a` is greater, L where less, unsigned. -/
def Obligations.CmpStep : Prop :=
  ∀ s : State, s.status = .running → s.params.operandFetch = .declared → s.pc ≤ 255 → s.opcodeByte = 0b10100111 →
    step s = .next (
      if s.pc = 255 then s.faulted (.memoryBoundsError (s.pc + 1))
      else if s.pc = 254 then s.faulted (.memoryBoundsError (s.pc + 2))
      else if ha : s.byteA.toNat < 8 then
        if hb : s.byteB.toNat < 8 then
          let a := (s.reg ⟨s.byteA.toNat, ha⟩).toNat
          let b := (s.reg ⟨s.byteB.toNat, hb⟩).toNat
          { s with fl := if a = b then 0x01 else if b < a then 0x02 else 0x04, pc := s.pc + 3 }
        else s.faulted (.registerBoundsError s.byteB)
      else s.faulted (.registerBoundsError s.byteA))

/-- R150. -/
def Obligations.JmpStep : Prop :=
  ∀ s : State, s.status = .running → s.params.operandFetch = .declared → s.pc ≤ 255 → s.opcodeByte = 0b01010100 →
    step s = .next (
      if s.pc = 255 then s.faulted (.memoryBoundsError 256)
      else if h : s.byteA.toNat < 8 then { s with pc := (s.reg ⟨s.byteA.toNat, h⟩).toNat }
      else s.faulted (.registerBoundsError s.byteA))

/-- R151: bit 0 of FL alone decides. -/
def Obligations.JeqStep : Prop :=
  ∀ s : State, s.status = .running → s.params.operandFetch = .declared → s.pc ≤ 255 → s.opcodeByte = 0b01010101 →
    step s = .next (
      if s.pc = 255 then s.faulted (.memoryBoundsError 256)
      else if h : s.byteA.toNat < 8 then
        { s with pc := if s.fl.toNat % 2 = 1 then (s.reg ⟨s.byteA.toNat, h⟩).toNat else s.pc + 2 }
      else s.faulted (.registerBoundsError s.byteA))

/-- R152. -/
def Obligations.JneStep : Prop :=
  ∀ s : State, s.status = .running → s.params.operandFetch = .declared → s.pc ≤ 255 → s.opcodeByte = 0b01010110 →
    step s = .next (
      if s.pc = 255 then s.faulted (.memoryBoundsError 256)
      else if h : s.byteA.toNat < 8 then
        { s with pc := if s.fl.toNat % 2 = 0 then (s.reg ⟨s.byteA.toNat, h⟩).toNat else s.pc + 2 }
      else s.faulted (.registerBoundsError s.byteA))

/-- R161 (D6): the store is at the decremented SP, and PUSH R7 stores that SP; `truncate` wraps SP. -/
def Obligations.PushStep : Prop :=
  ∀ s : State, s.status = .running → s.params.operandFetch = .declared → s.pc ≤ 255 → s.opcodeByte = 0b01000101 →
    step s = .next (
      if s.pc = 255 then s.faulted (.memoryBoundsError 256)
      else if h : s.byteA.toNat < 8 then
        if s.params.overflowPolicy = .validate ∧ s.reg 7 = 0x00 then s.faulted (.valueRangeFault (-1))
        else
          let sp := s.reg 7 - 1
          { s with
            x := s.x.set 7 sp
            mem := s.mem.write sp.toNat (if s.byteA = 7 then sp else s.reg ⟨s.byteA.toNat, h⟩)
            pc := s.pc + 2 }
      else s.faulted (.registerBoundsError s.byteA))

/-- R162 (D6): the increment is of R7 after the popped byte is written, so POP R7 leaves the popped byte + 1. -/
def Obligations.PopStep : Prop :=
  ∀ s : State, s.status = .running → s.params.operandFetch = .declared → s.pc ≤ 255 → s.opcodeByte = 0b01000110 →
    step s = .next (
      if s.pc = 255 then s.faulted (.memoryBoundsError 256)
      else if h : s.byteA.toNat < 8 then
        let v := s.mem.read (s.reg 7).toNat
        let sp := if s.byteA = 7 then v else s.reg 7
        if s.params.overflowPolicy = .validate ∧ sp = 0xFF then s.faulted (.valueRangeFault 256)
        else { s with x := (s.x.set s.byteA.toNat v h).set 7 (sp + 1), pc := s.pc + 2 }
      else s.faulted (.registerBoundsError s.byteA))

/-- R170 (D6): the SP check comes before the return-address check; CALL R7 goes to the decremented SP. -/
def Obligations.CallStep : Prop :=
  ∀ s : State, s.status = .running → s.params.operandFetch = .declared → s.pc ≤ 255 → s.opcodeByte = 0b01010000 →
    step s = .next (
      if s.pc = 255 then s.faulted (.memoryBoundsError 256)
      else if h : s.byteA.toNat < 8 then
        if s.params.overflowPolicy = .validate ∧ s.reg 7 = 0x00 then s.faulted (.valueRangeFault (-1))
        else if s.params.overflowPolicy = .validate ∧ s.pc = 254 then s.faulted (.valueRangeFault 256)
        else
          let sp := s.reg 7 - 1
          { s with
            x := s.x.set 7 sp
            mem := s.mem.write sp.toNat (BitVec.ofNat 8 (s.pc + 2))
            pc := if s.byteA = 7 then sp.toNat else (s.reg ⟨s.byteA.toNat, h⟩).toNat }
      else s.faulted (.registerBoundsError s.byteA))

/-- R171 (D6): RET has no operand, so it runs at 255 too. -/
def Obligations.RetStep : Prop :=
  ∀ s : State, s.status = .running → s.pc ≤ 255 → s.opcodeByte = 0b00010001 →
    step s = .next (
      if s.params.overflowPolicy = .validate ∧ s.reg 7 = 0xFF then s.faulted (.valueRangeFault 256)
      else { s with x := s.x.set 7 (s.reg 7 + 1), pc := (s.mem.read (s.reg 7).toNat).toNat })

/-- R180 (D9: `pc` stays at the HLT). -/
def Obligations.HltStep : Prop :=
  ∀ s : State, s.status = .running → s.pc ≤ 255 → s.opcodeByte = 0b00000001 →
    step s = .next { s with status := .halted, haltCause := .hlt }

/-- R181 (D4: 0x00 is decoded). -/
def Obligations.NopStep : Prop :=
  ∀ s : State, s.status = .running → s.params.nopDecoded = true → s.pc ≤ 255 → s.opcodeByte = 0b00000000 →
    step s = .next { s with pc := s.pc + 1 }

/-! ## Each instruction completes, with its result and its frame, in every state -/

/-- LDI writes its register, any of the eight, and `pc`. -/
def Obligations.LdiCompletes : Prop :=
  ∀ (r : RegIdx) (imm : Byte) (s : State), ∃ t, exec (.ldi (regByte r) imm) s = .next t ∧
    t.reg r = imm ∧ t.pc = s.pc + 3 ∧ Kept [r] [] s t ∧ t.fl = s.fl ∧ t.out = s.out ∧ SameRun s t

/-- PRN appends its register's byte to `out` and changes no register, cell or flag. -/
def Obligations.PrnCompletes : Prop :=
  ∀ (r : RegIdx) (s : State), ∃ t, exec (.prn (regByte r)) s = .next t ∧
    t.out = s.out ++ [s.reg r] ∧ t.pc = s.pc + 2 ∧ Kept [] [] s t ∧ t.fl = s.fl ∧ SameRun s t

/-- CMP sets exactly one of E, G, L by unsigned comparison, clears bits 3..7, and changes no register or cell. -/
def Obligations.CmpCompletes : Prop :=
  ∀ (a b : RegIdx) (s : State), ∃ t, exec (.cmp (regByte a) (regByte b)) s = .next t ∧
    t.flagE = decide (s.reg a = s.reg b) ∧ t.flagG = decide ((s.reg b).toNat < (s.reg a).toNat) ∧
    t.flagL = decide ((s.reg a).toNat < (s.reg b).toNat) ∧ t.fl.toNat < 8 ∧ t.pc = s.pc + 3 ∧
    Kept [] [] s t ∧ t.out = s.out ∧ SameRun s t

/-- JMP, JEQ and JNE change `pc` and nothing else; JEQ and JNE invert on E. -/
def Obligations.JumpsComplete : Prop :=
  ∀ (r : RegIdx) (s : State),
    exec (.jmp (regByte r)) s = .next { s with pc := (s.reg r).toNat } ∧
    (s.flagE = true →
      exec (.jeq (regByte r)) s = .next { s with pc := (s.reg r).toNat } ∧
      exec (.jne (regByte r)) s = .next { s with pc := s.pc + 2 }) ∧
    (s.flagE = false →
      exec (.jeq (regByte r)) s = .next { s with pc := s.pc + 2 } ∧
      exec (.jne (regByte r)) s = .next { s with pc := (s.reg r).toNat })

/-- PUSH completes unless SP is 0 under `validate`: it stores one byte, at the decremented SP, and writes SP (D6). -/
def Obligations.PushCompletes : Prop :=
  ∀ (r : RegIdx) (s : State), (s.params.overflowPolicy = .validate → s.sp ≠ 0) →
    ∃ sp t, spDec s.params.overflowPolicy s.sp = .ok sp ∧ sp.toNat = (s.sp.toNat + 255) % 256 ∧
      exec (.push (regByte r)) s = .next t ∧
      t.sp = sp ∧ t.mem.read sp.toNat = (if r = 7 then sp else s.reg r) ∧ t.pc = s.pc + 2 ∧
      Kept [7] [sp.toNat] s t ∧ t.fl = s.fl ∧ t.out = s.out ∧ SameRun s t

/-- POP completes unless the value it increments is 255 under `validate`: it stores nothing, and writes its register and SP
(D6). -/
def Obligations.PopCompletes : Prop :=
  ∀ (r : RegIdx) (s : State),
    (s.params.overflowPolicy = .validate → (if r = 7 then s.mem.read s.sp.toNat else s.sp) ≠ 0xFF) →
    ∃ t, exec (.pop (regByte r)) s = .next t ∧
      (r ≠ 7 → t.reg r = s.mem.read s.sp.toNat ∧ t.sp = s.sp + 1) ∧
      (r = 7 → t.sp = s.mem.read s.sp.toNat + 1) ∧ t.pc = s.pc + 2 ∧
      Kept [r, 7] [] s t ∧ t.fl = s.fl ∧ t.out = s.out ∧ SameRun s t

/-- CALL completes unless, under `validate`, SP is 0 or the return address passes 255: it stores one byte, the return address,
at the decremented SP (D6). -/
def Obligations.CallCompletes : Prop :=
  ∀ (r : RegIdx) (s : State), (s.params.overflowPolicy = .validate → s.sp ≠ 0 ∧ s.pc ≤ 253) →
    ∃ sp t, spDec s.params.overflowPolicy s.sp = .ok sp ∧ sp.toNat = (s.sp.toNat + 255) % 256 ∧
      exec (.call (regByte r)) s = .next t ∧
      t.sp = sp ∧ (t.mem.read sp.toNat).toNat = (s.pc + 2) % 256 ∧
      t.pc = (if r = 7 then sp else s.reg r).toNat ∧
      Kept [7] [sp.toNat] s t ∧ t.fl = s.fl ∧ t.out = s.out ∧ SameRun s t

/-- RET completes unless SP is 255 under `validate`: it stores nothing, and writes SP and `pc` (D6). -/
def Obligations.RetCompletes : Prop :=
  ∀ s : State, (s.params.overflowPolicy = .validate → s.sp ≠ 0xFF) →
    ∃ t, exec .ret s = .next t ∧ t.pc = (s.mem.read s.sp.toNat).toNat ∧ t.sp = s.sp + 1 ∧
      Kept [7] [] s t ∧ t.fl = s.fl ∧ t.out = s.out ∧ SameRun s t

/-- HLT and NOP complete in every state: HLT writes the run state alone (D9), NOP `pc` alone. -/
def Obligations.ControlCompletes : Prop :=
  ∀ s : State, exec .hlt s = .next { s with status := .halted, haltCause := .hlt } ∧
    exec .nop s = .next { s with pc := s.pc + 1 }

/-! ## The compare unit and the fit to a byte -/

/-- R140: exactly one of bits 0..2, by unsigned comparison, and bits 3..7 zero. -/
def Obligations.CompareIsUnsigned : Prop :=
  ∀ a b : Byte, (a = b → Machine.compare a b = 0x01) ∧ (b.toNat < a.toNat → Machine.compare a b = 0x02) ∧
    (a.toNat < b.toNat → Machine.compare a b = 0x04)

/-- The fit to a byte (R9, D6): a value in range as it is; out of range a fault under `validate`, the value mod 256 under
`truncate`. -/
def Obligations.FitKeepsFaultsOrWraps : Prop :=
  ∀ v : Int,
    (0 ≤ v → v ≤ 255 → ∀ policy, ∃ b, fit8 policy v = .ok b ∧ (b.toNat : Int) = v) ∧
    (v < 0 ∨ 255 < v → fit8 .validate v = .error (.valueRangeFault v) ∧
      ∃ b, fit8 .truncate v = .ok b ∧ (b.toNat : Int) = v % 256)

/-! ## Reset and launch -/

/-- The launch state of an image (R30, R230, R234, D13): SP 0xFF, the other registers 0, the image bytes over zeros, RUNNING;
an image of more than 256 bytes is not launched. -/
def Obligations.LaunchLoadsTheImageOverZeros : Prop :=
  ∀ (p : Params) (image : List Byte),
    (256 < image.length → State.launch p image = none) ∧
    (image.length ≤ 256 → ∃ t, State.launch p image = some t ∧
      (∀ i : RegIdx, t.reg i = if i = 7 then 0xFF else 0x00) ∧ t.pc = 0 ∧ t.fl = 0x00 ∧
      (∀ a, (h : a < image.length) → t.mem.read a = image[a]) ∧
      (∀ a, image.length ≤ a → a ≤ 255 → t.mem.read a = 0x00) ∧
      t.status = .running ∧ t.haltCause = .none ∧ t.out = [] ∧ t.params = p)

/-- The reset state is the launch state of the empty image at the parameter values of R5 (log entries 1 and 9). -/
def Obligations.ResetIsTheEmptyLaunch : Prop :=
  State.launch { overflowPolicy := .validate, operandFetch := .declared, nopDecoded := true } [] = some State.reset

/-- The reset state meets the invariant. -/
def Obligations.ResetMeetsTheInvariant : Prop := State.reset.Inv

/-- Every launched state meets the invariant. -/
def Obligations.LaunchMeetsTheInvariant : Prop :=
  ∀ (p : Params) (image : List Byte) (t : State), State.launch p image = some t → t.Inv

/-! ## Rules of the whole machine -/

/-- Every step keeps the invariant: memory's canonical form, the legal values of FL (R142), the range of `pc` (R23), no halt
cause exactly while RUNNING (R26), and the legal infos of a halt cause (R26, R201; with log entry 10 for `zero_fill`). -/
def Obligations.StepKeepsTheInvariant : Prop :=
  ∀ s t : State, s.Inv → step s = .next t → t.Inv

/-- No step changes the parameters (the model's own field, log entry 1). -/
def Obligations.StepKeepsTheParameters : Prop :=
  ∀ s t : State, step s = .next t → t.params = s.params

/-- Only CMP writes FL (R24, D16). -/
def Obligations.OnlyCmpWritesTheFlags : Prop :=
  ∀ s t : State, step s = .next t → t.fl ≠ s.fl → s.status = .running ∧ s.opcodeByte = 0xA7

/-- Only PRN writes `out`, and it appends the byte of the register it names (R28, R213, D11). -/
def Obligations.OnlyPrnEmits : Prop :=
  ∀ s t : State, step s = .next t → t.out ≠ s.out →
    s.status = .running ∧ ∃ r : RegIdx, s.fetchInstr = .ok (.prn (regByte r)) ∧ t.out = s.out ++ [s.reg r]

/-- Only PUSH and CALL write memory, one cell, the one at the new SP (R52, derived there). -/
def Obligations.OnlyPushAndCallWriteMemory : Prop :=
  ∀ (s t : State) (a : Nat), step s = .next t → t.mem.read a ≠ s.mem.read a →
    s.status = .running ∧ (s.opcodeByte = 0x45 ∨ s.opcodeByte = 0x50) ∧ a = t.sp.toNat ∧ t.sp = s.sp - 1

/-- A register is written only by an LDI or POP that names it, and SP by the stack instructions too (the writes column of
R22). -/
def Obligations.RegistersAreWrittenAsListed : Prop :=
  ∀ (s t : State) (i : RegIdx), step s = .next t → t.reg i ≠ s.reg i →
    s.status = .running ∧ ∃ j, s.fetchInstr = .ok j ∧
      match j with
      | .ldi r _ => r.toNat = i.val
      | .pop r => r.toNat = i.val ∨ i = 7
      | .push _ | .call _ | .ret => i = 7
      | .prn _ | .cmp _ _ | .jmp _ | .jeq _ | .jne _ | .hlt | .nop => False

/-- The next `pc` is one of those listed in R13 (D12): held by HLT and by a fault, advanced by the length, a register's value
by a jump or CALL, or the byte at SP by RET. -/
def Obligations.NextPcIsAsListed : Prop :=
  ∀ s t : State, s.status = .running → s.haltCause = .none → step s = .next t →
    (t.pc = s.pc ∧ t.status = .halted) ∨
    (t.status = .running ∧ ∃ i, s.fetchInstr = .ok i ∧
      match i with
      | .jmp r | .call r => ∃ j : RegIdx, r.toNat = j.val ∧ t.pc = (t.reg j).toNat
      | .jeq r => ∃ j : RegIdx, r.toNat = j.val ∧ t.pc = if s.flagE then (t.reg j).toNat else s.pc + 2
      | .jne r => ∃ j : RegIdx, r.toNat = j.val ∧ t.pc = if s.flagE then s.pc + 2 else (t.reg j).toNat
      | .ret => t.pc = (s.mem.read s.sp.toNat).toNat
      | .hlt => False
      | .ldi _ _ | .cmp _ _ => t.pc = s.pc + 3
      | .prn _ | .push _ | .pop _ => t.pc = s.pc + 2
      | .nop => t.pc = s.pc + 1)

/-- HALTED is entered by HLT or by a fault, with its cause, and never left (R25, R111; log entry 3). -/
def Obligations.RunEndsOnlyByHltOrAFault : Prop :=
  ∀ s t : State, step s = .next t →
    (s.status = .halted → t.status = .halted ∧ t.haltCause = s.haltCause) ∧
    (s.status = .running → t.status = .halted →
      (s.opcodeByte = 0x01 ∧ t.haltCause = .hlt) ∨ ∃ f, t.haltCause = .fault f)

/-- A byte that PUSH stores over the next instruction is what the next step fetches (R61, D15). -/
def Obligations.PushedByteIsFetchedNext : Prop :=
  ∀ (r : RegIdx) (s : State), r ≠ 7 → s.sp ≠ 0 → s.sp.toNat = s.pc + 3 →
    ∃ t, exec (.push (regByte r)) s = .next t ∧ t.memRead t.pc = .ok (s.reg r)

/-- A cell that the step neither fetches, pops nor pushes to does not matter to it: changing it before the step or after it
gives the same state (R52, R87, R104). -/
def Obligations.UnreadCellDoesNotMatter : Prop :=
  ∀ (s t : State) (a : Nat) (v : Byte), s.mem.wf = true → a ≤ 255 → a ≠ s.pc →
    (∀ n, declaredOperands s.opcodeByte = some n → a < s.pc ∨ s.pc + n < a) →
    (s.opcodeByte ∈ ([0x46, 0x11] : List Byte) → a ≠ s.sp.toNat) →
    (s.opcodeByte ∈ ([0x45, 0x50] : List Byte) → a ≠ (s.sp - 1).toNat) →
    step s = .next t → step (s.poke a v) = .next (t.poke a v)

/-- `truncate` and `validate` run alike wherever `validate` raises no ValueRangeFault (D6). -/
def Obligations.PoliciesDifferOnlyInRangeFaults : Prop :=
  ∀ s t : State, step (s.withPolicy .validate) = .next t → (∀ v, t.haltCause ≠ .fault (.valueRangeFault v)) →
    step (s.withPolicy .truncate) = .next (t.withPolicy .truncate)

/-! ## Round trips -/

/-- PUSH then POP (R164, derived there): for R0..R6 the value moves and SP returns; with R7 pushed the value is SP - 1, with R7
popped the final SP is the popped byte + 1. -/
def Obligations.PushThenPopRoundTrips : Prop :=
  ∀ (q r : RegIdx) (s : State), s.sp ≠ 0 → (r = 7 → (if q = 7 then s.sp - 1 else s.reg q) ≠ 0xFF) →
    ∃ t u, exec (.push (regByte q)) s = .next t ∧ exec (.pop (regByte r)) t = .next u ∧
      (q ≠ 7 → r ≠ 7 → u.reg r = s.reg q ∧ u.sp = s.sp) ∧
      (q = 7 → r ≠ 7 → u.reg r = s.sp - 1 ∧ u.sp = s.sp) ∧
      (r = 7 → u.sp = (if q = 7 then s.sp - 1 else s.reg q) + 1)

/-- CALL then, in any later state with SP and the cell there as the CALL left them, RET (R172, derived there). -/
def Obligations.CallThenReturnRoundTrips : Prop :=
  ∀ (r : RegIdx) (s : State), r ≠ 7 → s.pc ≤ 253 → s.sp ≠ 0 →
    ∃ t, exec (.call (regByte r)) s = .next t ∧ t.pc = (s.reg r).toNat ∧
      (t.mem.read t.sp.toNat).toNat = s.pc + 2 ∧
      ∀ u : State, u.sp = t.sp → u.mem.read u.sp.toNat = t.mem.read t.sp.toNat →
        ∃ w, exec .ret u = .next w ∧ w.pc = s.pc + 2 ∧ w.sp = s.sp

/-- The kind codes of `halt_cause` (R26, D10): the numbers are the spec's own. -/
def Obligations.HaltCauseCodes : Prop :=
  HaltCause.none.code = 0 ∧ HaltCause.hlt.code = 1 ∧
    ∀ (b : Byte) (a : Nat) (v : Int),
      (HaltCause.fault (.unknownOpcodeFault b)).code = 2 ∧ (HaltCause.fault (.memoryBoundsError a)).code = 3 ∧
      (HaltCause.fault (.registerBoundsError b)).code = 4 ∧ (HaltCause.fault (.valueRangeFault v)).code = 5
end

