-- ==== Sys2Proof/Laws/Decode.lean ====
section
/-! SUPPORT. The opcode table's selection: a selected row is the table's row of that byte, and the unknown bytes select none. -/

namespace Sys2Proof

theorem selectRow_mem {nopDecoded : Bool} {ir : Byte} {row : OpcodeRow} (h : selectRow nopDecoded ir = some row) :
    row ∈ opcodeTable ∧ row.pattern = ir := by
  unfold selectRow at h
  split at h
  · cases h
  · exact ⟨List.mem_of_find?_eq_some h, by simpa using List.find?_some h⟩

/-- The bytes that select no row are the 244 unknown ones (R84), and 0x00 where NOP is not decoded. -/
theorem selectRow_none_iff {nopDecoded : Bool} {ir : Byte} :
    selectRow nopDecoded ir = none ↔ ir ∉ opcodeTable.map OpcodeRow.pattern ∨ (ir = 0 ∧ nopDecoded = false) := by
  unfold selectRow
  split
  · rename_i h
    simp [h]
  · rename_i h
    simp only [h, or_false, List.find?_eq_none, List.mem_map, beq_iff_eq, not_exists, not_and]

end Sys2Proof
end

