-- ==== Sys2Proof/Laws/State.lean ====
section
/-! SUPPORT. One lemma per field per update of State, and the register file's read after write. -/

namespace Sys2Proof.Machine

variable (s : State)

/-! ## setReg -/

@[simp] theorem setReg_pc (i : RegIdx) (v : Byte) : (s.setReg i v).pc = s.pc := rfl
@[simp] theorem setReg_fl (i : RegIdx) (v : Byte) : (s.setReg i v).fl = s.fl := rfl
@[simp] theorem setReg_mem (i : RegIdx) (v : Byte) : (s.setReg i v).mem = s.mem := rfl
@[simp] theorem setReg_status (i : RegIdx) (v : Byte) : (s.setReg i v).status = s.status := rfl
@[simp] theorem setReg_haltCause (i : RegIdx) (v : Byte) : (s.setReg i v).haltCause = s.haltCause := rfl
@[simp] theorem setReg_out (i : RegIdx) (v : Byte) : (s.setReg i v).out = s.out := rfl
@[simp] theorem setReg_params (i : RegIdx) (v : Byte) : (s.setReg i v).params = s.params := rfl

/-! ## setPc -/

@[simp] theorem setPc_pc (n : Nat) : (s.setPc n).pc = n := rfl
@[simp] theorem setPc_x (n : Nat) : (s.setPc n).x = s.x := rfl
@[simp] theorem setPc_fl (n : Nat) : (s.setPc n).fl = s.fl := rfl
@[simp] theorem setPc_mem (n : Nat) : (s.setPc n).mem = s.mem := rfl
@[simp] theorem setPc_status (n : Nat) : (s.setPc n).status = s.status := rfl
@[simp] theorem setPc_haltCause (n : Nat) : (s.setPc n).haltCause = s.haltCause := rfl
@[simp] theorem setPc_out (n : Nat) : (s.setPc n).out = s.out := rfl
@[simp] theorem setPc_params (n : Nat) : (s.setPc n).params = s.params := rfl
@[simp] theorem setPc_reg (n : Nat) (j : RegIdx) : (s.setPc n).reg j = s.reg j := rfl
@[simp] theorem setPc_sp (n : Nat) : (s.setPc n).sp = s.sp := rfl

/-! ## setFl -/

@[simp] theorem setFl_fl (v : Byte) : (s.setFl v).fl = v := rfl
@[simp] theorem setFl_x (v : Byte) : (s.setFl v).x = s.x := rfl
@[simp] theorem setFl_pc (v : Byte) : (s.setFl v).pc = s.pc := rfl
@[simp] theorem setFl_mem (v : Byte) : (s.setFl v).mem = s.mem := rfl
@[simp] theorem setFl_status (v : Byte) : (s.setFl v).status = s.status := rfl
@[simp] theorem setFl_haltCause (v : Byte) : (s.setFl v).haltCause = s.haltCause := rfl
@[simp] theorem setFl_out (v : Byte) : (s.setFl v).out = s.out := rfl
@[simp] theorem setFl_params (v : Byte) : (s.setFl v).params = s.params := rfl
@[simp] theorem setFl_reg (v : Byte) (j : RegIdx) : (s.setFl v).reg j = s.reg j := rfl
@[simp] theorem setFl_sp (v : Byte) : (s.setFl v).sp = s.sp := rfl

/-! ## emit -/

@[simp] theorem emit_out (v : Byte) : (s.emit v).out = s.out ++ [v] := rfl
@[simp] theorem emit_x (v : Byte) : (s.emit v).x = s.x := rfl
@[simp] theorem emit_pc (v : Byte) : (s.emit v).pc = s.pc := rfl
@[simp] theorem emit_fl (v : Byte) : (s.emit v).fl = s.fl := rfl
@[simp] theorem emit_mem (v : Byte) : (s.emit v).mem = s.mem := rfl
@[simp] theorem emit_status (v : Byte) : (s.emit v).status = s.status := rfl
@[simp] theorem emit_haltCause (v : Byte) : (s.emit v).haltCause = s.haltCause := rfl
@[simp] theorem emit_params (v : Byte) : (s.emit v).params = s.params := rfl
@[simp] theorem emit_reg (v : Byte) (j : RegIdx) : (s.emit v).reg j = s.reg j := rfl
@[simp] theorem emit_sp (v : Byte) : (s.emit v).sp = s.sp := rfl

/-! ## halt -/

@[simp] theorem halt_status (c : HaltCause) : (s.halt c).status = .halted := rfl
@[simp] theorem halt_haltCause (c : HaltCause) : (s.halt c).haltCause = c := rfl
@[simp] theorem halt_x (c : HaltCause) : (s.halt c).x = s.x := rfl
@[simp] theorem halt_pc (c : HaltCause) : (s.halt c).pc = s.pc := rfl
@[simp] theorem halt_fl (c : HaltCause) : (s.halt c).fl = s.fl := rfl
@[simp] theorem halt_mem (c : HaltCause) : (s.halt c).mem = s.mem := rfl
@[simp] theorem halt_out (c : HaltCause) : (s.halt c).out = s.out := rfl
@[simp] theorem halt_params (c : HaltCause) : (s.halt c).params = s.params := rfl
@[simp] theorem halt_reg (c : HaltCause) (j : RegIdx) : (s.halt c).reg j = s.reg j := rfl
@[simp] theorem halt_sp (c : HaltCause) : (s.halt c).sp = s.sp := rfl

/-! ## raise -/

@[simp] theorem raise_status (f : CoreFault) : (s.raise f).status = .halted := rfl
@[simp] theorem raise_haltCause (f : CoreFault) : (s.raise f).haltCause = .fault f := rfl
@[simp] theorem raise_x (f : CoreFault) : (s.raise f).x = s.x := rfl
@[simp] theorem raise_pc (f : CoreFault) : (s.raise f).pc = s.pc := rfl
@[simp] theorem raise_fl (f : CoreFault) : (s.raise f).fl = s.fl := rfl
@[simp] theorem raise_mem (f : CoreFault) : (s.raise f).mem = s.mem := rfl
@[simp] theorem raise_out (f : CoreFault) : (s.raise f).out = s.out := rfl
@[simp] theorem raise_params (f : CoreFault) : (s.raise f).params = s.params := rfl
@[simp] theorem raise_reg (f : CoreFault) (j : RegIdx) : (s.raise f).reg j = s.reg j := rfl
@[simp] theorem raise_sp (f : CoreFault) : (s.raise f).sp = s.sp := rfl

/-! ## setMem -/

@[simp] theorem setMem_mem (m : Memory) : (s.setMem m).mem = m := rfl
@[simp] theorem setMem_x (m : Memory) : (s.setMem m).x = s.x := rfl
@[simp] theorem setMem_pc (m : Memory) : (s.setMem m).pc = s.pc := rfl
@[simp] theorem setMem_fl (m : Memory) : (s.setMem m).fl = s.fl := rfl
@[simp] theorem setMem_status (m : Memory) : (s.setMem m).status = s.status := rfl
@[simp] theorem setMem_haltCause (m : Memory) : (s.setMem m).haltCause = s.haltCause := rfl
@[simp] theorem setMem_out (m : Memory) : (s.setMem m).out = s.out := rfl
@[simp] theorem setMem_params (m : Memory) : (s.setMem m).params = s.params := rfl
@[simp] theorem setMem_reg (m : Memory) (j : RegIdx) : (s.setMem m).reg j = s.reg j := rfl
@[simp] theorem setMem_sp (m : Memory) : (s.setMem m).sp = s.sp := rfl

/-! ## Register file -/

/-- A register reads as the last value written to it (R20); R7 is such a register (R21). -/
@[simp] theorem reg_setReg (i j : RegIdx) (v : Byte) : (s.setReg i v).reg j = if j = i then v else s.reg j := by
  simp [State.setReg, State.reg, Vector.get_eq_getElem, Vector.getElem_set, Fin.ext_iff, eq_comm]

@[simp] theorem sp_setReg (i : RegIdx) (v : Byte) : (s.setReg i v).sp = if i = spIndex then v else s.sp := by
  simp [State.sp, eq_comm]

/-- Register files that read the same are the same. -/
theorem x_ext {s t : State} (h : ∀ i, s.reg i = t.reg i) : s.x = t.x := by
  apply Vector.ext
  intro i hi
  exact h ⟨i, hi⟩

end Sys2Proof.Machine
end

