-- ==== Sys2Proof/Laws/Memory.lean ====
section
/-! SUPPORT. Memory: read after write, and every operation keeps the canonical form. -/

namespace Sys2Proof.Machine

namespace Memory

@[simp] theorem read_nil (a : Nat) : read [] a = blank := rfl

theorem read_cons (c : Host.Cell) (m : Memory) (a : Nat) : read (c :: m) a = if c.1 = a then c.2 else read m a := rfl

/-! ## Read after write -/

theorem read_erase (m : Memory) (a b : Nat) : read (erase m a) b = if b = a then blank else read m b := by
  induction m with
  | nil => simp [erase]
  | cons c m ih =>
    by_cases hc : c.1 = a
    · simp only [erase, List.filter_cons, hc, ne_eq, not_true_eq_false, decide_false, Bool.false_eq_true, if_false, read_cons]
      simp only [erase, ne_eq] at ih
      rw [ih]
      by_cases hb : b = a
      · simp [hb]
      · simp [hb, Ne.symm hb]
    · simp only [erase, List.filter_cons, hc, ne_eq, not_false_eq_true, decide_true, if_true, read_cons]
      simp only [erase, ne_eq] at ih
      rw [ih]
      by_cases hb : b = a
      · simp [hb, hc]
      · simp [hb]

theorem erase_fresh (m : Memory) (a : Nat) : ∀ c ∈ erase m a, c.1 ≠ a := by
  simp [erase]

theorem read_insert (m : Memory) (a b : Nat) (v : Byte) (h : ∀ c ∈ m, c.1 ≠ a) :
    read (insert m a v) b = if b = a then v else read m b := by
  induction m with
  | nil => simp [insert, read_cons, eq_comm]
  | cons c m ih =>
    have hc : c.1 ≠ a := h c (by simp)
    unfold insert
    by_cases hlt : a < c.1
    · simp only [hlt, if_true, read_cons]
      by_cases hb : b = a
      · simp [hb]
      · simp [hb, Ne.symm hb]
    · simp only [hlt, if_false, read_cons]
      rw [ih (fun d hd => h d (by simp [hd]))]
      by_cases hb : b = a
      · simp [hb, hc]
      · simp [hb]

/-- A cell reads as the last byte written to it, and a write changes no other cell (R55, R58). -/
@[simp] theorem read_write (m : Memory) (a b : Nat) (v : Byte) :
    read (write m a v) b = if b = a then v else read m b := by
  unfold write
  split
  · rename_i hv
    rw [read_erase, hv]
  · rw [read_insert _ _ _ _ (erase_fresh m a), read_erase]
    by_cases hb : b = a <;> simp [hb]

/-- Bytes stored at increasing addresses read back, and other cells are kept. -/
theorem read_storeBytes (bs : List Byte) (m : Memory) (a b : Nat) (hb : b < memSize) :
    read (storeBytes m a bs) b = if h : a ≤ b ∧ b - a < bs.length then bs[b - a]'h.2 else read m b := by
  induction bs generalizing m a with
  | nil => simp [storeBytes]
  | cons v bs ih =>
    rw [storeBytes, ih]
    by_cases hab : b = a
    · subst hab
      simp [hb]
    · by_cases hle : a ≤ b
      · have h1 : a + 1 ≤ b := by omega
        have h2 : b - a = (b - (a + 1)) + 1 := by omega
        simp only [h1, hle, true_and, List.length_cons, h2, List.getElem_cons_succ, Nat.add_lt_add_iff_right]
        split
        · rfl
        · split <;> simp [hab]
      · have h1 : ¬ (a + 1 ≤ b) := by omega
        simp only [h1, hle, false_and, dite_false]
        split <;> simp [hab]

/-! ## Canonical form -/

theorem wf_cons {c : Host.Cell} {m : Memory} :
    wf (c :: m) = true ↔ c.1 < memSize ∧ c.2 ≠ blank ∧ (∀ d ∈ m, c.1 < d.1) ∧ wf m = true := by
  simp [wf, and_assoc]

theorem erase_wf (m : Memory) (a : Nat) (h : wf m = true) : wf (erase m a) = true := by
  induction m with
  | nil => rfl
  | cons c m ih =>
    obtain ⟨h1, h2, h3, h4⟩ := wf_cons.mp h
    by_cases hc : c.1 = a
    · simpa [erase, hc] using ih h4
    · have : erase (c :: m) a = c :: erase m a := by simp [erase, hc]
      rw [this]
      exact wf_cons.mpr ⟨h1, h2, fun d hd => h3 d (List.mem_filter.mp hd).1, ih h4⟩

theorem mem_insert {m : Memory} {a : Nat} {v : Byte} {d : Host.Cell} (h : d ∈ insert m a v) : d = (a, v) ∨ d ∈ m := by
  induction m with
  | nil => simpa [insert] using h
  | cons c m ih =>
    unfold insert at h
    split at h
    · simpa using h
    · rcases List.mem_cons.mp h with rfl | h
      · simp
      · rcases ih h with h | h <;> simp [h]

theorem insert_wf (m : Memory) (a : Nat) (v : Byte) (h : wf m = true) (ha : a < memSize) (hv : v ≠ blank)
    (hf : ∀ c ∈ m, c.1 ≠ a) : wf (insert m a v) = true := by
  induction m with
  | nil => exact wf_cons.mpr ⟨ha, hv, by simp, rfl⟩
  | cons c m ih =>
    obtain ⟨h1, h2, h3, h4⟩ := wf_cons.mp h
    have hc : c.1 ≠ a := hf c (by simp)
    unfold insert
    split
    · rename_i hlt
      refine wf_cons.mpr ⟨ha, hv, ?_, h⟩
      intro d hd
      rcases List.mem_cons.mp hd with rfl | hd
      · exact hlt
      · exact hlt.trans (h3 d hd)
    · refine wf_cons.mpr ⟨h1, h2, ?_, ih h4 (fun d hd => hf d (by simp [hd]))⟩
      intro d hd
      rcases mem_insert hd with rfl | hd
      · show c.1 < a
        omega
      · exact h3 d hd

theorem write_wf (m : Memory) (a : Nat) (v : Byte) (h : wf m = true) (ha : a < memSize) : wf (write m a v) = true := by
  unfold write
  split
  · exact erase_wf m a h
  · rename_i hv
    exact insert_wf _ a v (erase_wf m a h) ha hv (erase_fresh m a)

theorem storeBytes_wf (bs : List Byte) (m : Memory) (a : Nat) (h : wf m = true) : wf (storeBytes m a bs) = true := by
  induction bs generalizing m a with
  | nil => exact h
  | cons v bs ih =>
    rw [storeBytes]
    apply ih
    split
    · exact write_wf m a v h ‹_›
    · exact h

theorem reset_wf : wf State.reset.mem = true := rfl

/-- No cell past 255 is listed. -/
theorem read_past_top {m : Memory} (h : wf m = true) {a : Nat} (ha : memSize ≤ a) : read m a = blank := by
  induction m with
  | nil => rfl
  | cons c m ih =>
    obtain ⟨h1, -, -, h4⟩ := wf_cons.mp h
    rw [read_cons, if_neg (by omega), ih h4]

theorem read_below {m : Memory} {a : Nat} (h : ∀ d ∈ m, a < d.1) : read m a = blank := by
  induction m with
  | nil => rfl
  | cons c m ih =>
    have := h c (by simp)
    rw [read_cons, if_neg (by omega), ih (fun d hd => h d (by simp [hd]))]

/-- The form is canonical: memories that read the same are the same list. -/
theorem ext {m n : Memory} (hm : wf m = true) (hn : wf n = true) (h : ∀ a, read m a = read n a) : m = n := by
  induction m generalizing n with
  | nil =>
    cases n with
    | nil => rfl
    | cons d n =>
      obtain ⟨-, h2, -, -⟩ := wf_cons.mp hn
      have := h d.1
      simp only [read_nil, read_cons, if_true] at this
      exact absurd this.symm h2
  | cons c m ih =>
    obtain ⟨-, c2, c3, c4⟩ := wf_cons.mp hm
    cases n with
    | nil =>
      have := h c.1
      simp only [read_nil, read_cons, if_true] at this
      exact absurd this c2
    | cons d n =>
      obtain ⟨-, d2, d3, d4⟩ := wf_cons.mp hn
      have hcd : c.1 = d.1 := by
        rcases Nat.lt_trichotomy c.1 d.1 with hlt | heq | hgt
        · have := h c.1
          rw [read_cons, if_pos rfl, read_cons, if_neg (by omega), read_below (fun e he => hlt.trans (d3 e he))] at this
          exact absurd this c2
        · exact heq
        · have := h d.1
          rw [read_cons, if_neg (by omega), read_below (fun e he => Nat.lt_trans hgt (c3 e he)), read_cons, if_pos rfl] at this
          exact absurd this.symm d2
      have hval : c.2 = d.2 := by
        have := h c.1
        rwa [read_cons, if_pos rfl, read_cons, if_pos hcd.symm] at this
      have htail : m = n := by
        apply ih c4 d4
        intro a
        by_cases ha : c.1 = a
        · subst ha
          rw [read_below c3, read_below (fun e he => hcd ▸ d3 e he)]
        · have := h a
          rwa [read_cons, if_neg ha, read_cons, if_neg (hcd ▸ ha)] at this
      rw [htail]
      congr 1
      exact Prod.ext hcd hval

end Memory

/-! ## The checked accesses of a state -/

theorem memRead_ok {s : State} {a : Nat} (h : a < memSize) : s.memRead a = .ok (s.mem.read a) := if_pos h

theorem memRead_error {s : State} {a : Nat} (h : memSize ≤ a) : s.memRead a = .error (.memoryBoundsError a) :=
  if_neg (by omega)

theorem memWrite_ok {s : State} {a : Nat} {v : Byte} (h : a < memSize) :
    s.memWrite a v = .ok (s.setMem (s.mem.write a v)) := if_pos h

/-- A stack address is a byte, so it is in bounds (R52, R201). -/
@[simp] theorem memRead_byte (s : State) (b : Byte) : s.memRead b.toNat = .ok (s.mem.read b.toNat) := memRead_ok b.isLt

@[simp] theorem memWrite_byte (s : State) (b v : Byte) :
    s.memWrite b.toNat v = .ok (s.setMem (s.mem.write b.toNat v)) := memWrite_ok b.isLt

end Sys2Proof.Machine
end

