-- ==== Sys2Proof/Laws/Ops.lean ====
section
/-! SUPPORT. One lemma per shared operation: register operands, fitting to a byte, stack arithmetic, commit, fetch. -/

namespace Sys2Proof.Machine

/-! ## The fault monad -/

@[simp] theorem effect_ok_bind {α β : Type} (a : α) (f : α → Effect β) : ((Except.ok a : Effect α) >>= f) = f a := rfl

@[simp] theorem effect_error_bind {α β : Type} (e : CoreFault) (f : α → Effect β) :
    ((Except.error e : Effect α) >>= f) = .error e := rfl

/-- A computation that ends well ended well at its first step. -/
theorem effect_bind_ok {α β : Type} {e : Effect α} {f : α → Effect β} {b : β} (h : (e >>= f) = .ok b) :
    ∃ a, e = .ok a ∧ f a = .ok b := by
  cases e with
  | ok a => exact ⟨a, rfl, h⟩
  | error _ => cases h

@[simp] theorem commit_ok (s t : State) : commit s (.ok t) = .next t := rfl

@[simp] theorem commit_error (s : State) (f : CoreFault) : commit s (.error f) = .next (s.faulted f) := rfl

/-- Everything a commit can do (R10): the computed state, or the fault state. -/
theorem commit_cases {s t : State} {e : Effect State} (h : commit s e = .next t) :
    e = .ok t ∨ ∃ f, e = .error f ∧ t = s.faulted f := by
  cases e with
  | ok u => exact .inl (by simpa using h)
  | error f => exact .inr ⟨f, rfl, by simpa [eq_comm] using h⟩

theorem commit_next (s : State) (e : Effect State) : ∃ t, commit s e = .next t := by
  cases e with
  | ok t => exact ⟨t, rfl⟩
  | error f => exact ⟨s.faulted f, rfl⟩

/-! ## Register operands (R105) -/

theorem regOperand_ok {b : Byte} (h : b.toNat < 8) : regOperand b = .ok ⟨b.toNat, h⟩ := dif_pos h

theorem regOperand_error {b : Byte} (h : 8 ≤ b.toNat) : regOperand b = .error (.registerBoundsError b) :=
  dif_neg (by omega)

@[simp] theorem regOperand_regByte (i : RegIdx) : regOperand (regByte i) = .ok i := by
  have h : (regByte i).toNat = i.val := by
    simp only [regByte, BitVec.toNat_ofNat]
    omega
  rw [regOperand_ok (by omega : (regByte i).toNat < 8)]
  exact congrArg _ (Fin.ext h)

/-! ## Fitting to a byte (R9, R14) -/

theorem fit8_ok {policy : OverflowPolicy} {v : Int} (h : (0 ≤ v ∧ v ≤ 255) ∨ policy = .truncate) :
    fit8 policy v = .ok (BitVec.ofInt 8 v) := by
  unfold fit8
  by_cases hv : 0 ≤ v ∧ v ≤ 255
  · rw [if_pos hv]
  · rw [if_neg hv, h.resolve_left hv]

theorem fit8_error {v : Int} (h : v < 0 ∨ 255 < v) : fit8 .validate v = .error (.valueRangeFault v) :=
  if_neg (by omega)

theorem spDec_ok {policy : OverflowPolicy} {sp : Byte} (h : policy = .validate → sp ≠ 0) :
    spDec policy sp = .ok (sp - 1) := by
  have hv : BitVec.ofInt 8 ((sp.toNat : Int) - 1) = sp - 1 := by
    apply BitVec.eq_of_toNat_eq
    have := sp.isLt
    simp only [BitVec.toNat_ofInt, BitVec.toNat_sub]
    simp
    omega
  rw [spDec, fit8_ok, hv]
  cases policy with
  | truncate => exact .inr rfl
  | validate =>
    have h0 : sp.toNat ≠ 0 := fun e => h rfl (BitVec.eq_of_toNat_eq e)
    have := sp.isLt
    exact .inl (by omega)

theorem spDec_error : spDec .validate 0 = .error (.valueRangeFault (-1)) := rfl

theorem spInc_ok {policy : OverflowPolicy} {sp : Byte} (h : policy = .validate → sp ≠ 0xFF) :
    spInc policy sp = .ok (sp + 1) := by
  have hv : BitVec.ofInt 8 ((sp.toNat : Int) + 1) = sp + 1 := by
    apply BitVec.eq_of_toNat_eq
    have := sp.isLt
    simp only [BitVec.toNat_ofInt, BitVec.toNat_add]
    simp
    omega
  rw [spInc, fit8_ok, hv]
  cases policy with
  | truncate => exact .inr rfl
  | validate =>
    have h0 : sp.toNat ≠ 255 := fun e => h rfl (BitVec.eq_of_toNat_eq e)
    have := sp.isLt
    exact .inl (by omega)

theorem spInc_error : spInc .validate 0xFF = .error (.valueRangeFault 256) := fit8_error (v := 256) (by decide)

theorem retAddr_ok {policy : OverflowPolicy} {pc : Nat} (h : policy = .validate → pc ≤ 253) :
    retAddr policy pc = .ok (BitVec.ofNat 8 (pc + 2)) := by
  have hv : BitVec.ofInt 8 ((pc : Int) + 2) = BitVec.ofNat 8 (pc + 2) := by
    exact_mod_cast BitVec.ofInt_natCast 8 (pc + 2)
  rw [retAddr, fit8_ok, hv]
  cases policy with
  | truncate => exact .inr rfl
  | validate =>
    have h253 := h rfl
    exact .inl ⟨by omega, by omega⟩

theorem retAddr_error {pc : Nat} (h : 254 ≤ pc) : retAddr .validate pc = .error (.valueRangeFault ((pc : Int) + 2)) :=
  fit8_error (by omega)

/-! ## Fetch (R102 to R104) -/

/-- The operand fetch: what it answers in bounds, and past 255 under each value of `OPERAND_FETCH`. -/
theorem fetchOperand_inside {s : State} {k : Nat} (h : s.pc + k < memSize) :
    s.fetchOperand k = .ok (s.mem.read (s.pc + k)) := by
  unfold State.fetchOperand
  split
  · exact memRead_ok h
  · rw [if_pos h, memRead_ok h]

theorem fetchOperand_declared {s : State} {k : Nat} (hp : s.params.operandFetch = .declared) (h : memSize ≤ s.pc + k) :
    s.fetchOperand k = .error (.memoryBoundsError (s.pc + k)) := by
  simp only [State.fetchOperand, hp]
  exact memRead_error h

theorem fetchOperand_zeroFill {s : State} {k : Nat} (hp : s.params.operandFetch = .zeroFill) (h : memSize ≤ s.pc + k) :
    s.fetchOperand k = .ok 0 := by
  simp only [State.fetchOperand, hp, if_neg (by omega : ¬ s.pc + k < memSize)]

/-- Fetching in bounds of an opcode byte that selects a row reads that row's operands. -/
theorem fetchInstr_selected {s : State} {row : OpcodeRow} (h : s.pc < memSize)
    (hr : selectRow s.params.nopDecoded (s.mem.read s.pc) = some row) : s.fetchInstr = s.fetchOperands row.format := by
  simp [State.fetchInstr, memRead_ok h, hr]

theorem fetchInstr_unknown {s : State} (h : s.pc < memSize)
    (hr : selectRow s.params.nopDecoded (s.mem.read s.pc) = none) :
    s.fetchInstr = .error (.unknownOpcodeFault (s.mem.read s.pc)) := by
  simp [State.fetchInstr, memRead_ok h, hr]

theorem fetchInstr_past_top {s : State} (h : memSize ≤ s.pc) : s.fetchInstr = .error (.memoryBoundsError s.pc) := by
  simp [State.fetchInstr, memRead_error h]

/-! ## The step -/

theorem step_fetched {s : State} {i : Instr} (hs : s.status = .running) (h : s.fetchInstr = .ok i) : step s = exec i s := by
  simp [step, hs, h]

theorem step_unfetched {s : State} {f : CoreFault} (hs : s.status = .running) (h : s.fetchInstr = .error f) :
    step s = .next (s.faulted f) := by
  simp [step, hs, h]

/-- Everything a step can do (R100, R101): keep a halted state, take a fault of the fetch, or run the fetched instruction. -/
theorem step_cases {s t : State} (h : step s = .next t) :
    (s.status = .halted ∧ t = s) ∨
    (s.status = .running ∧ ∃ f, s.fetchInstr = .error f ∧ t = s.faulted f) ∨
    (s.status = .running ∧ ∃ i, s.fetchInstr = .ok i ∧ exec i s = .next t) := by
  cases hs : s.status with
  | halted =>
    left
    simpa [step, hs, stayHalted, eq_comm] using h
  | running =>
    right
    cases hf : s.fetchInstr with
    | error f => exact .inl ⟨rfl, f, rfl, by simpa [step, hs, hf, eq_comm] using h⟩
    | ok i => exact .inr ⟨rfl, i, rfl, by simpa [step, hs, hf] using h⟩

end Sys2Proof.Machine
end

