-- ==== Sys2Proof/Laws/Exec.lean ====
section
/-! SUPPORT. What each meaning answers, in the terms of the shared operations: on legal register operands, and where it takes a
fault. -/

namespace Sys2Proof.Machine

variable (s : State)

/-- A legal register operand byte is the byte of a register number. -/
theorem eq_regByte {b : Byte} (h : b.toNat < 8) : b = regByte ⟨b.toNat, h⟩ := by
  apply BitVec.eq_of_toNat_eq
  simp [regByte]

theorem regByte_toNat (i : RegIdx) : (regByte i).toNat = i.val := by
  simp only [regByte, BitVec.toNat_ofNat]
  omega

theorem exec_ldi (r : RegIdx) (imm : Byte) :
    exec (.ldi (regByte r) imm) s = .next ((s.setReg r imm).setPc (s.pc + 3)) := by
  simp [exec, execLdi]

theorem exec_prn (r : RegIdx) : exec (.prn (regByte r)) s = .next ((s.emit (s.reg r)).setPc (s.pc + 2)) := by
  simp [exec, execPrn]

theorem exec_cmp (a b : RegIdx) : exec (.cmp (regByte a) (regByte b)) s =
    .next ((s.setFl (Machine.compare (s.reg a) (s.reg b))).setPc (s.pc + 3)) := by
  simp [exec, execCmp]

theorem exec_jmp (r : RegIdx) : exec (.jmp (regByte r)) s = .next (s.setPc (s.reg r).toNat) := by
  simp [exec, execJmp]

theorem exec_jeq (r : RegIdx) :
    exec (.jeq (regByte r)) s = .next (s.setPc (if s.flagE then (s.reg r).toNat else s.pc + 2)) := by
  simp [exec, execJeq]

theorem exec_jne (r : RegIdx) :
    exec (.jne (regByte r)) s = .next (s.setPc (if s.flagE then s.pc + 2 else (s.reg r).toNat)) := by
  simp [exec, execJne]

/-- PUSH, by what the decrement of SP answers. -/
theorem exec_push (r : RegIdx) : exec (.push (regByte r)) s =
    commit s ((spDec s.params.overflowPolicy s.sp).map fun sp =>
      ((s.setReg 7 sp).setMem (s.mem.write sp.toNat (if r = 7 then sp else s.reg r))).setPc (s.pc + 2)) := by
  cases h : spDec s.params.overflowPolicy s.sp <;> simp [exec, execPush, h, Except.map]

/-- POP, by what the increment of R7 answers after the popped byte is written. -/
theorem exec_pop (r : RegIdx) : exec (.pop (regByte r)) s =
    commit s ((spInc s.params.overflowPolicy (if r = 7 then s.mem.read s.sp.toNat else s.sp)).map fun sp =>
      ((s.setReg r (s.mem.read s.sp.toNat)).setReg 7 sp).setPc (s.pc + 2)) := by
  cases h : spInc s.params.overflowPolicy (if r = 7 then s.mem.read s.sp.toNat else s.sp) <;>
    simp [exec, execPop, h, Except.map]

/-- CALL, by what the decrement of SP and then the return address answer. -/
theorem exec_call (r : RegIdx) : exec (.call (regByte r)) s =
    commit s ((spDec s.params.overflowPolicy s.sp).bind fun sp =>
      (retAddr s.params.overflowPolicy s.pc).map fun ra =>
        ((s.setReg 7 sp).setMem (s.mem.write sp.toNat ra)).setPc (if r = 7 then sp else s.reg r).toNat) := by
  cases h : spDec s.params.overflowPolicy s.sp <;> cases h2 : retAddr s.params.overflowPolicy s.pc <;>
    simp [exec, execCall, h, h2, Except.map, Except.bind]

/-- RET, by what the increment of SP answers. -/
theorem exec_ret : exec .ret s =
    commit s ((spInc s.params.overflowPolicy s.sp).map fun sp =>
      (s.setReg 7 sp).setPc (s.mem.read s.sp.toNat).toNat) := by
  cases h : spInc s.params.overflowPolicy s.sp <;> simp [exec, execRet, h, Except.map]

/-! ## Where the stack instructions complete -/

theorem exec_push_ok (r : RegIdx) (h : s.params.overflowPolicy = .validate → s.sp ≠ 0) :
    exec (.push (regByte r)) s = .next (((s.setReg 7 (s.sp - 1)).setMem
      (s.mem.write (s.sp - 1).toNat (if r = 7 then s.sp - 1 else s.reg r))).setPc (s.pc + 2)) := by
  rw [exec_push, spDec_ok h]
  rfl

theorem exec_pop_ok (r : RegIdx)
    (h : s.params.overflowPolicy = .validate → (if r = 7 then s.mem.read s.sp.toNat else s.sp) ≠ 0xFF) :
    exec (.pop (regByte r)) s = .next (((s.setReg r (s.mem.read s.sp.toNat)).setReg 7
      ((if r = 7 then s.mem.read s.sp.toNat else s.sp) + 1)).setPc (s.pc + 2)) := by
  rw [exec_pop, spInc_ok h]
  rfl

theorem exec_call_ok (r : RegIdx) (h : s.params.overflowPolicy = .validate → s.sp ≠ 0 ∧ s.pc ≤ 253) :
    exec (.call (regByte r)) s = .next (((s.setReg 7 (s.sp - 1)).setMem
      (s.mem.write (s.sp - 1).toNat (BitVec.ofNat 8 (s.pc + 2)))).setPc (if r = 7 then s.sp - 1 else s.reg r).toNat) := by
  rw [exec_call, spDec_ok (fun e => (h e).1), retAddr_ok (fun e => (h e).2)]
  rfl

theorem exec_ret_ok (h : s.params.overflowPolicy = .validate → s.sp ≠ 0xFF) :
    exec .ret s = .next ((s.setReg 7 (s.sp + 1)).setPc (s.mem.read s.sp.toNat).toNat) := by
  rw [exec_ret, spInc_ok h]
  rfl

theorem exec_hlt : exec .hlt s = .next (s.halt .hlt) := rfl

theorem exec_nop : exec .nop s = .next (s.setPc (s.pc + 1)) := rfl

/-! ## Everything a meaning can do -/

/-- What an instruction with legal register operands that runs through leaves. -/
inductive Ran (s : State) : Instr → State → Prop
  | ldi (r : RegIdx) (imm : Byte) : Ran s (.ldi (regByte r) imm) ((s.setReg r imm).setPc (s.pc + 3))
  | prn (r : RegIdx) : Ran s (.prn (regByte r)) ((s.emit (s.reg r)).setPc (s.pc + 2))
  | cmp (a b : RegIdx) :
      Ran s (.cmp (regByte a) (regByte b)) ((s.setFl (Machine.compare (s.reg a) (s.reg b))).setPc (s.pc + 3))
  | jmp (r : RegIdx) : Ran s (.jmp (regByte r)) (s.setPc (s.reg r).toNat)
  | jeq (r : RegIdx) : Ran s (.jeq (regByte r)) (s.setPc (if s.flagE then (s.reg r).toNat else s.pc + 2))
  | jne (r : RegIdx) : Ran s (.jne (regByte r)) (s.setPc (if s.flagE then s.pc + 2 else (s.reg r).toNat))
  | push (r : RegIdx) (h : s.params.overflowPolicy = .validate → s.sp ≠ 0) :
      Ran s (.push (regByte r)) (((s.setReg 7 (s.sp - 1)).setMem
        (s.mem.write (s.sp - 1).toNat (if r = 7 then s.sp - 1 else s.reg r))).setPc (s.pc + 2))
  | pop (r : RegIdx) (h : s.params.overflowPolicy = .validate → (if r = 7 then s.mem.read s.sp.toNat else s.sp) ≠ 0xFF) :
      Ran s (.pop (regByte r)) (((s.setReg r (s.mem.read s.sp.toNat)).setReg 7
        ((if r = 7 then s.mem.read s.sp.toNat else s.sp) + 1)).setPc (s.pc + 2))
  | call (r : RegIdx) (h : s.params.overflowPolicy = .validate → s.sp ≠ 0 ∧ s.pc ≤ 253) :
      Ran s (.call (regByte r)) (((s.setReg 7 (s.sp - 1)).setMem
        (s.mem.write (s.sp - 1).toNat (BitVec.ofNat 8 (s.pc + 2)))).setPc (if r = 7 then s.sp - 1 else s.reg r).toNat)
  | ret (h : s.params.overflowPolicy = .validate → s.sp ≠ 0xFF) :
      Ran s .ret ((s.setReg 7 (s.sp + 1)).setPc (s.mem.read s.sp.toNat).toNat)
  | hlt : Ran s .hlt (s.halt .hlt)
  | nop : Ran s .nop (s.setPc (s.pc + 1))

/-- The value-range faults of legal operands under `validate`, each with its value (R204). -/
inductive OutOfRange (s : State) : Instr → Int → Prop
  | push (r : RegIdx) (h : s.sp = 0) : OutOfRange s (.push (regByte r)) (-1)
  | pop (r : RegIdx) (h : (if r = 7 then s.mem.read s.sp.toNat else s.sp) = 0xFF) : OutOfRange s (.pop (regByte r)) 256
  | callSp (r : RegIdx) (h : s.sp = 0) : OutOfRange s (.call (regByte r)) (-1)
  | callPc (r : RegIdx) (h : s.sp ≠ 0) (hp : 254 ≤ s.pc) : OutOfRange s (.call (regByte r)) (s.pc + 2)
  | ret (h : s.sp = 0xFF) : OutOfRange s .ret 256

/-- Everything a meaning can do: run through, or halt on its first illegal register operand or, under `validate`, on a value
out of a byte's range. -/
def ExecOutcome (s : State) (i : Instr) (t : State) : Prop :=
  Ran s i t ∨
    (∃ b : Byte, i.regOperands.find? (fun r => decide (8 ≤ r.toNat)) = some b ∧ t = s.faulted (.registerBoundsError b)) ∨
    (s.params.overflowPolicy = .validate ∧ ∃ v, OutOfRange s i v ∧ t = s.faulted (.valueRangeFault v))

theorem regByte_legal (i : RegIdx) : decide (8 ≤ (regByte i).toNat) = false := by
  have := regByte_toNat i
  simp only [decide_eq_false_iff_not]
  omega

/-- A meaning of one register operand: on an illegal operand it halts, so it is enough to know it on legal ones. -/
theorem exec_one {s : State} {make : Byte → Instr} {b : Byte} {t : State} (h : exec (make b) s = .next t)
    (bad : regOperand b = .error (.registerBoundsError b) → exec (make b) s = .next (s.faulted (.registerBoundsError b)))
    (first : decide (8 ≤ b.toNat) = true → (make b).regOperands.find? (fun r => decide (8 ≤ r.toNat)) = some b)
    (good : ∀ r, exec (make (regByte r)) s = .next t → ExecOutcome s (make (regByte r)) t) : ExecOutcome s (make b) t := by
  by_cases hb : b.toNat < 8
  · rw [eq_regByte hb] at h ⊢
    exact good _ h
  · have hb8 : 8 ≤ b.toNat := by omega
    rw [bad (regOperand_error hb8)] at h
    cases h
    exact .inr (.inl ⟨b, first (by simpa using hb8), rfl⟩)

theorem exec_cases {i : Instr} {s t : State} (h : exec i s = .next t) : ExecOutcome s i t := by
  cases i with
  | ldi b imm =>
    refine exec_one (make := fun r => .ldi r imm) h (fun e => by simp [exec, execLdi, e]) (fun e => by simp [Instr.regOperands, e])
      (fun r h => ?_)
    rw [exec_ldi] at h
    cases h
    exact .inl (.ldi r imm)
  | prn b =>
    refine exec_one h (fun e => by simp [exec, execPrn, e]) (fun e => by simp [Instr.regOperands, e])
      (fun r h => ?_)
    rw [exec_prn] at h
    cases h
    exact .inl (.prn r)
  | cmp a b =>
    refine exec_one (make := fun a => .cmp a b) h (fun e => by simp [exec, execCmp, e]) (fun e => by simp [Instr.regOperands, e])
      (fun r h => ?_)
    refine exec_one (make := fun b => .cmp (regByte r) b) h (fun e => by simp [exec, execCmp, e])
      (fun e => by simp [Instr.regOperands, e, regByte_legal]) (fun r' h => ?_)
    rw [exec_cmp] at h
    cases h
    exact .inl (.cmp r r')
  | jmp b =>
    refine exec_one h (fun e => by simp [exec, execJmp, e]) (fun e => by simp [Instr.regOperands, e])
      (fun r h => ?_)
    rw [exec_jmp] at h
    cases h
    exact .inl (.jmp r)
  | jeq b =>
    refine exec_one h (fun e => by simp [exec, execJeq, e]) (fun e => by simp [Instr.regOperands, e])
      (fun r h => ?_)
    rw [exec_jeq] at h
    cases h
    exact .inl (.jeq r)
  | jne b =>
    refine exec_one h (fun e => by simp [exec, execJne, e]) (fun e => by simp [Instr.regOperands, e])
      (fun r h => ?_)
    rw [exec_jne] at h
    cases h
    exact .inl (.jne r)
  | push b =>
    refine exec_one h (fun e => by simp [exec, execPush, e]) (fun e => by simp [Instr.regOperands, e])
      (fun r h => ?_)
    by_cases hc : s.params.overflowPolicy = .validate ∧ s.sp = 0
    · rw [exec_push, hc.1, hc.2, spDec_error] at h
      cases h
      exact .inr (.inr ⟨hc.1, _, .push r hc.2, rfl⟩)
    · have ok : s.params.overflowPolicy = .validate → s.sp ≠ 0 := fun e e' => hc ⟨e, e'⟩
      rw [exec_push_ok _ _ ok] at h
      cases h
      exact .inl (.push r ok)
  | pop b =>
    refine exec_one h (fun e => by simp [exec, execPop, e]) (fun e => by simp [Instr.regOperands, e])
      (fun r h => ?_)
    by_cases hc : s.params.overflowPolicy = .validate ∧ (if r = 7 then s.mem.read s.sp.toNat else s.sp) = 0xFF
    · rw [exec_pop, hc.1, hc.2, spInc_error] at h
      cases h
      exact .inr (.inr ⟨hc.1, _, .pop r hc.2, rfl⟩)
    · have ok : s.params.overflowPolicy = .validate → (if r = 7 then s.mem.read s.sp.toNat else s.sp) ≠ 0xFF :=
        fun e e' => hc ⟨e, e'⟩
      rw [exec_pop_ok _ _ ok] at h
      cases h
      exact .inl (.pop r ok)
  | call b =>
    refine exec_one h (fun e => by simp [exec, execCall, e]) (fun e => by simp [Instr.regOperands, e])
      (fun r h => ?_)
    by_cases hc : s.params.overflowPolicy = .validate ∧ s.sp = 0
    · rw [exec_call, hc.1, hc.2, spDec_error] at h
      cases h
      exact .inr (.inr ⟨hc.1, _, .callSp r hc.2, rfl⟩)
    · by_cases hp : s.params.overflowPolicy = .validate ∧ 254 ≤ s.pc
      · rw [exec_call, spDec_ok (fun e e' => hc ⟨e, e'⟩), hp.1, retAddr_error hp.2] at h
        cases h
        exact .inr (.inr ⟨hp.1, _, .callPc r (fun e => hc ⟨hp.1, e⟩) hp.2, rfl⟩)
      · have ok : s.params.overflowPolicy = .validate → s.sp ≠ 0 ∧ s.pc ≤ 253 := fun e =>
          ⟨fun e' => hc ⟨e, e'⟩, Nat.lt_succ_iff.mp (Nat.not_le.mp fun e' => hp ⟨e, e'⟩)⟩
        rw [exec_call_ok _ _ ok] at h
        cases h
        exact .inl (.call r ok)
  | ret =>
    by_cases hc : s.params.overflowPolicy = .validate ∧ s.sp = 0xFF
    · rw [exec_ret, hc.1, hc.2, spInc_error] at h
      cases h
      exact .inr (.inr ⟨hc.1, _, .ret hc.2, rfl⟩)
    · have ok : s.params.overflowPolicy = .validate → s.sp ≠ 0xFF := fun e e' => hc ⟨e, e'⟩
      rw [exec_ret_ok _ ok] at h
      cases h
      exact .inl (.ret ok)
  | hlt =>
    cases h
    exact .inl .hlt
  | nop =>
    cases h
    exact .inl .nop

end Sys2Proof.Machine
end

