-- ==== Sys2Proof/Laws/PerInstr.lean ====
section
/-! SUPPORT. Statements made per instruction (LAWS.json). -/

namespace Sys2Proof.Laws

/-- The encoding of an instruction is as long as the table says (spec/30_encoding.md R81): the opcode byte and the declared
operands. -/
def EncodedLength.Statement (i : Instr) : Prop := (encode i).length = i.length

theorem EncodedLength.ldi (r imm : Byte) : EncodedLength.Statement (.ldi r imm) := rfl
theorem EncodedLength.prn (r : Byte) : EncodedLength.Statement (.prn r) := rfl
theorem EncodedLength.cmp (a b : Byte) : EncodedLength.Statement (.cmp a b) := rfl
theorem EncodedLength.jmp (r : Byte) : EncodedLength.Statement (.jmp r) := rfl
theorem EncodedLength.jeq (r : Byte) : EncodedLength.Statement (.jeq r) := rfl
theorem EncodedLength.jne (r : Byte) : EncodedLength.Statement (.jne r) := rfl
theorem EncodedLength.push (r : Byte) : EncodedLength.Statement (.push r) := rfl
theorem EncodedLength.pop (r : Byte) : EncodedLength.Statement (.pop r) := rfl
theorem EncodedLength.call (r : Byte) : EncodedLength.Statement (.call r) := rfl
theorem EncodedLength.ret : EncodedLength.Statement .ret := rfl
theorem EncodedLength.hlt : EncodedLength.Statement .hlt := rfl
theorem EncodedLength.nop : EncodedLength.Statement .nop := rfl

end Sys2Proof.Laws
end

