-- ==== Sys2Proof/Tests/Slice0.lean ====
section
/-! SUPPORT. The model's own tests: the WellFormed smoke test, decoding of words written out from spec/30_encoding.md, the vectors of
spec/95_test_vectors.md (their ids are in the comments; E and V rows are derived from the rules there, not measured), and for every
obligation with hypotheses states that meet them. -/

namespace Sys2Proof.Tests

open Sys2Proof.Machine

/-- Launch, with bytes at `pc` and execution there. -/
def at_ (pc : Nat) (bytes : List Byte) : State :=
  { State.reset with pc := pc, mem := Memory.storeBytes [] pc bytes }

/-- The same, with SP and the byte at SP. -/
def stack (pc : Nat) (bytes : List Byte) (sp v : Byte) : State :=
  ((at_ pc bytes).setReg 7 sp).poke sp.toNat v

/-- The next state of an outcome. -/
def after (o : Host.Outcome State Fault Refusal) : Option State :=
  match o with
  | .next t => some t
  | .fault _ => none
  | .refused _ => none

/-- How a step from a state ends: registers, `pc` and halt cause. -/
def view (s : State) : Option (List Byte × Nat × HaltCause) :=
  (after (step s)).map fun t => (t.x.toList, t.pc, t.haltCause)

/-! ## WellFormed: one ill-formed term for each check -/

theorem test_illegal_operands_refused :
    Instr.wellFormed (.ldi 8 0) = false ∧ Instr.wellFormed (.prn 8) = false ∧ Instr.wellFormed (.cmp 8 0) = false ∧
    Instr.wellFormed (.cmp 0 8) = false ∧ Instr.wellFormed (.jmp 0xFF) = false ∧ Instr.wellFormed (.jeq 8) = false ∧
    Instr.wellFormed (.jne 8) = false ∧ Instr.wellFormed (.push 8) = false ∧ Instr.wellFormed (.pop 8) = false ∧
    Instr.wellFormed (.call 8) = false := by decide

theorem test_legal_operands_accepted :
    Instr.wellFormed (.ldi 7 0xFF) = true ∧ Instr.wellFormed (.cmp 7 7) = true ∧ Instr.wellFormed .ret = true := by decide

/-! ## Decoding words written out from the opcode map (R80) -/

theorem test_decode_words :
    decode true [0b10000010, 4, 0x7B] = .ok (.ldi 4 0x7B, []) ∧ decode true [0b01000111, 2] = .ok (.prn 2, []) ∧
    decode true [0b10100111, 1, 6] = .ok (.cmp 1 6, []) ∧ decode true [0b01010100, 1] = .ok (.jmp 1, []) ∧
    decode true [0b01010101, 2] = .ok (.jeq 2, []) ∧ decode true [0b01010110, 4] = .ok (.jne 4, []) ∧
    decode true [0b01000101, 7] = .ok (.push 7, []) ∧ decode true [0b01000110, 0] = .ok (.pop 0, []) ∧
    decode true [0b01010000, 1] = .ok (.call 1, []) ∧ decode true [0b00010001, 9] = .ok (.ret, [9]) ∧
    decode true [0b00000001] = .ok (.hlt, []) ∧ decode true [0b00000000] = .ok (.nop, []) :=
  ⟨rfl, rfl, rfl, rfl, rfl, rfl, rfl, rfl, rfl, rfl, rfl, rfl⟩

theorem test_decode_rejects_by_name :
    decode true [] = .error .noOpcode ∧ decode true [0xFF, 0] = .error (.unknownOpcode 0xFF) ∧
    decode true [0x83] = .error (.unknownOpcode 0x83) ∧ decode true [0x47] = .error .noOperandA ∧
    decode true [0xA7] = .error .noOperandA ∧ decode true [0xA7, 0] = .error .noOperandB ∧
    decode false [0x00] = .error (.unknownOpcode 0x00) := ⟨rfl, rfl, rfl, rfl, rfl, rfl, rfl⟩

/-- No two of the twelve rows share a pattern (R80), so 244 opcode bytes are unknown (R84). -/
theorem test_patterns_distinct :
    (opcodeTable.map OpcodeRow.pattern).Pairwise (· ≠ ·) ∧ opcodeTable.length = 256 - 244 := by decide

theorem test_table_words :
    decodeTableWord 8 0x82 = some (.ldi 0 0) ∧ decodeTableWord 24 0x050382 = some (.ldi 3 5) ∧
    decodeTableWord 16 0x0247 = some (.prn 2) ∧ decodeTableWord 8 0xFF = none := by decide

theorem test_fetch_word_runs :
    view (State.reset.withFetchWord 24 0x2A0382) = some ([0, 0, 0, 42, 0, 0, 0, 0xFF], 3, .none) ∧
    view (State.reset.withFetchWord 8 0x01) = some ([0, 0, 0, 0, 0, 0, 0, 0xFF], 0, .hlt) := by decide

/-! ## Vectors of 95_test_vectors.md -/

/-- V-L2, V-L5, V-L6. -/
theorem test_ldi :
    view (at_ 0 [0x82, 7, 0x10]) = some ([0, 0, 0, 0, 0, 0, 0, 0x10], 3, .none) ∧
    view (at_ 253 [0x82, 0, 0x2A]) = some ([42, 0, 0, 0, 0, 0, 0, 0xFF], 256, .none) ∧
    view (at_ 254 [0x82, 0]) = some ([0, 0, 0, 0, 0, 0, 0, 0xFF], 254, .fault (.memoryBoundsError 256)) := by decide

/-- V-L7, V-L8, V-L10. -/
theorem test_prn :
    (after (step ((at_ 0 [0x47, 2]).setReg 2 200))).map State.out = some [200] ∧
    (after (step (at_ 0 [0x47, 7]))).map State.out = some [255] ∧
    view (at_ 0 [0x47, 9]) = some ([0, 0, 0, 0, 0, 0, 0, 0xFF], 0, .fault (.registerBoundsError 9)) := by decide

/-- V-C1, V-C3, V-C4, V-C6. -/
theorem test_cmp :
    (after (step ((at_ 0 [0xA7, 0, 1]).setReg 1 255))).map State.fl = some 0x04 ∧
    (after (step (((at_ 0 [0xA7, 0, 1]).setReg 0 0x80).setReg 1 0x7F))).map State.fl = some 0x02 ∧
    (after (step ((at_ 0 [0xA7, 0, 1]).setFl 0x04))).map State.fl = some 0x01 ∧
    (after (step (at_ 0 [0xA7, 7, 0]))).map State.fl = some 0x02 := by decide

/-- V-F6, V-F7, V-F8: the order of fault checks. -/
theorem test_fault_order :
    (view (at_ 254 [0xA7, 9])).map (·.2.2) = some (.fault (.memoryBoundsError 256)) ∧
    (view (at_ 0 [0xA7, 9, 8])).map (·.2.2) = some (.fault (.registerBoundsError 9)) ∧
    (view (stack 0 [0x45, 9] 0 0x45)).map (·.2.2) = some (.fault (.registerBoundsError 9)) := by decide

/-- V-J1, V-J2. -/
theorem test_jmp :
    (view ((at_ 10 [0x54, 1]).setReg 1 0x40)).map (·.2.1) = some 0x40 ∧ (view (at_ 0 [0x54, 7])).map (·.2.1) = some 0xFF := by
  decide

/-- V-J3, the JEQ column, and V-J7. -/
theorem test_jeq :
    [0x00, 0x01, 0x02, 0x04].map (fun f => (view (((at_ 12 [0x55, 2]).setReg 2 19).setFl f)).map (·.2.1)) =
      [some 14, some 19, some 14, some 14] ∧
    (view (at_ 0 [0x55, 8])).map (·.2.2) = some (.fault (.registerBoundsError 8)) := by decide

/-- V-J3, the JNE column. -/
theorem test_jne :
    [0x00, 0x01, 0x02, 0x04].map (fun f => (view (((at_ 12 [0x56, 2]).setReg 2 19).setFl f)).map (·.2.1)) =
      [some 19, some 14, some 19, some 19] := by decide

/-- V-S1, V-S2, V-S3: the cell stored. -/
theorem test_push_store :
    (after (step ((at_ 0 [0x45, 0]).setReg 0 42))).map (fun t => (t.sp, t.mem.read 0xFE, t.pc)) = some (0xFE, 42, 2) ∧
    (after (step (at_ 0 [0x45, 7]))).map (fun t => (t.sp, t.mem.read 0xFE)) = some (0xFE, 0xFE) ∧
    (after (step (((at_ 10 [0x45, 0]).setReg 0 9).setReg 7 1))).map (fun t => (t.sp, t.mem.read 0)) = some (0, 9) := by decide

/-- V-S4, V-S5: SP = 0 under each policy. -/
theorem test_push_at_zero :
    view (((at_ 5 [0x45, 0]).setReg 0 9).setReg 7 0) = some ([9, 0, 0, 0, 0, 0, 0, 0], 5, .fault (.valueRangeFault (-1))) ∧
    (after (step ((((at_ 5 [0x45, 0]).setReg 0 9).setReg 7 0).withPolicy .truncate))).map (fun t => (t.sp, t.mem.read 0xFF)) =
      some (0xFF, 9) := by decide

/-- V-S6, V-S7, V-S8. -/
theorem test_pop :
    view (stack 0 [0x46, 2] 0xFE 42) = some ([0, 0, 42, 0, 0, 0, 0, 0xFF], 2, .none) ∧
    view (stack 0 [0x46, 7] 0xFE 0x10) = some ([0, 0, 0, 0, 0, 0, 0, 0x11], 2, .none) ∧
    view (stack 0 [0x46, 7] 0xFE 0xFF) = some ([0, 0, 0, 0, 0, 0, 0, 0xFE], 0, .fault (.valueRangeFault 256)) := by decide

/-- V-S9, V-S10, V-S11: the pop whose increment leaves a byte. -/
theorem test_pop_at_top :
    view ((stack 0 [0x46, 7] 0xFE 0xFF).withPolicy .truncate) = some ([0, 0, 0, 0, 0, 0, 0, 0], 2, .none) ∧
    view (at_ 0 [0x46, 0]) = some ([0, 0, 0, 0, 0, 0, 0, 0xFF], 0, .fault (.valueRangeFault 256)) ∧
    view ((stack 0 [0x46, 0] 0xFF 0x5A).withPolicy .truncate) = some ([0x5A, 0, 0, 0, 0, 0, 0, 0], 2, .none) := by decide

/-- V-R1, V-R2. -/
theorem test_call :
    (after (step (((at_ 8 [0x50, 1]).setReg 1 15).setReg 7 0xFE))).map (fun t => (t.sp, t.mem.read 0xFD, t.pc)) =
      some (0xFD, 10, 15) ∧
    (after (step (at_ 0 [0x50, 7]))).map (fun t => (t.sp, t.mem.read 0xFE, t.pc)) = some (0xFE, 2, 0xFE) := by decide

/-- V-R3, V-R4, V-R5: the return address that leaves a byte, and the SP check before it. -/
theorem test_call_at_top :
    (view (at_ 254 [0x50, 1])).map (·.2.2) = some (.fault (.valueRangeFault 256)) ∧
    (after (step (((at_ 254 [0x50, 1]).setReg 1 0x20).withPolicy .truncate))).map (fun t => (t.sp, t.mem.read 0xFE, t.pc)) =
      some (0xFE, 0, 0x20) ∧
    (view ((at_ 254 [0x50, 1]).setReg 7 0)).map (·.2.2) = some (.fault (.valueRangeFault (-1))) := by decide

/-- V-R7, V-R8, V-R9, V-F11. -/
theorem test_ret :
    view (stack 20 [0x11] 0xFD 10) = some ([0, 0, 0, 0, 0, 0, 0, 0xFE], 10, .none) ∧
    (view (at_ 0 [0x11])).map (·.2.2) = some (.fault (.valueRangeFault 256)) ∧
    view ((at_ 0 [0x11]).withPolicy .truncate) = some ([0, 0, 0, 0, 0, 0, 0, 0], 0, .none) ∧
    view (stack 255 [0x11] 0xFD 0x20) = some ([0, 0, 0, 0, 0, 0, 0, 0xFE], 0x20, .none) := by decide

/-- V-H1, V-F10. -/
theorem test_hlt :
    after (step (at_ 5 [0x01])) = some { at_ 5 [0x01] with status := .halted, haltCause := .hlt } ∧
    (view (at_ 255 [0x01])).map (·.2) = some (255, .hlt) := by decide

/-- V-H2, V-H3, V-F4. -/
theorem test_nop :
    after (step (at_ 7 [0])) = some { at_ 7 [0] with pc := 8 } ∧ (view (at_ 255 [0])).map (·.2) = some (256, .none) ∧
    (view (at_ 256 [])).map (·.2) = some (256, .fault (.memoryBoundsError 256)) := by decide

/-- E7, V-F2: an unknown opcode keeps `pc`. -/
theorem test_unknown_opcode :
    after (step (at_ 0 [0xFF])) =
      some { at_ 0 [0xFF] with status := .halted, haltCause := .fault (.unknownOpcodeFault 0xFF) } ∧
    (view (at_ 0 [0x83])).map (·.2) = some (0, .fault (.unknownOpcodeFault 0x83)) := by decide

/-! ## States that meet the hypotheses of the obligations, at the boundary of each clause -/

theorem witness_StepRunsTheDecodedInstruction :
    (at_ 253 [0x82, 1, 5]).status = .running ∧ (at_ 253 [0x82, 1, 5]).pc + 3 ≤ 256 ∧
    decode true (bytesAt (at_ 253 [0x82, 1, 5]).mem 253 3) = .ok (.ldi 1 5, []) ∧
    decode true (bytesAt (at_ 255 [0x11]).mem 255 1) = .ok (.ret, []) := ⟨rfl, by decide, rfl, rfl⟩

/-- `zero_fill`. -/
def zeroFilled (s : State) : State := { s with params := { s.params with operandFetch := .zeroFill } }

theorem witness_ZeroFilledOperandsRunTheInstruction :
    (zeroFilled (at_ 255 [0x82])).status = .running ∧ (zeroFilled (at_ 255 [0x82])).params.operandFetch = .zeroFill ∧
    decode true (bytesAt (zeroFilled (at_ 255 [0x82])).mem 255 1 ++ [0, 0]) = .ok (.ldi 0 0, []) ∧
    decode true (bytesAt (zeroFilled (at_ 254 [0xA7, 3])).mem 254 2 ++ [0, 0]) = .ok (.cmp 3 0, [0]) :=
  ⟨rfl, rfl, rfl, rfl⟩

theorem witness_HaltedStepKeepsTheState : (State.reset.halt .hlt).status = .halted := rfl

theorem witness_FetchPastTheTopHalts : (at_ 256 []).status = .running ∧ 256 ≤ (at_ 256 []).pc := by decide

theorem witness_OperandPastTheTopHalts :
    (at_ 255 [0x47]).status = .running ∧ (at_ 255 [0x47]).params.operandFetch = .declared ∧
    declaredOperands (at_ 255 [0x47]).opcodeByte = some 1 ∧ 256 ≤ 255 + 1 ∧
    declaredOperands (at_ 254 [0x82]).opcodeByte = some 2 ∧ 256 ≤ 254 + 2 ∧
    declaredOperands (at_ 255 [0xA7]).opcodeByte = some 2 ∧ 256 ≤ 255 + 2 := by decide

theorem witness_UnknownOpcodeHaltsWithTheByte :
    (at_ 255 [0xFF]).status = .running ∧ (at_ 255 [0xFF]).pc ≤ 255 ∧
    (at_ 255 [0xFF]).opcodeByte ∉
      ([0x82, 0x47, 0xA7, 0x54, 0x55, 0x56, 0x45, 0x46, 0x50, 0x11, 0x01, 0x00] : List Byte) := by decide

/-- `NOP_DECODED` false. -/
def nopUndecoded (s : State) : State := { s with params := { s.params with nopDecoded := false } }

theorem witness_UndecodedNopIsUnknown :
    (nopUndecoded (at_ 255 [])).status = .running ∧ (nopUndecoded (at_ 255 [])).params.nopDecoded = false ∧
    (nopUndecoded (at_ 255 [])).pc ≤ 255 ∧ (nopUndecoded (at_ 255 [])).opcodeByte = 0x00 := by decide

theorem witness_IllegalRegisterOperandHalts :
    (Instr.jeq 8).regOperands.find? (fun r => decide (8 ≤ r.toNat)) = some 8 ∧
    (Instr.cmp 9 8).regOperands.find? (fun r => decide (8 ≤ r.toNat)) = some 9 ∧
    (Instr.cmp 7 0xFF).regOperands.find? (fun r => decide (8 ≤ r.toNat)) = some 0xFF := by decide

theorem witness_HandlersRaiseOnlyRangeFaults :
    Instr.wellFormed (.push 7) = true ∧ (after (exec (.push 7) (at_ 0 []))).isSome = true ∧
    (after (exec (.push 7) ((at_ 0 []).setReg 7 0))).map State.haltCause = some (.fault (.valueRangeFault (-1))) ∧
    Instr.wellFormed .hlt = true ∧ (after (exec .hlt (at_ 0 []))).isSome = true ∧
    Instr.wellFormed (.ldi 7 0) = true ∧ (after (exec (.ldi 7 0) (at_ 0 []))).isSome = true := by decide

/-- R108, an item each: 1, 2, 3, 4, 5, 6, 7, and no fault, with and without HLT. -/
theorem witness_StepTakesTheFirstFaultOfTheOrder :
    State.reset.status = .running ∧ State.reset.params.operandFetch = .declared ∧ State.reset.params.nopDecoded = true ∧
    (at_ 256 []).firstFault = some (.memoryBoundsError 256) ∧
    (at_ 255 [0x02]).firstFault = some (.unknownOpcodeFault 0x02) ∧
    (at_ 255 [0xA7]).firstFault = some (.memoryBoundsError 256) ∧
    (at_ 254 [0xA7, 9]).firstFault = some (.memoryBoundsError 256) ∧
    (at_ 253 [0xA7, 8, 9]).firstFault = some (.registerBoundsError 8) ∧
    (at_ 253 [0xA7, 7, 8]).firstFault = some (.registerBoundsError 8) ∧
    (at_ 254 [0x50, 0]).firstFault = some (.valueRangeFault 256) ∧
    (at_ 253 [0x50, 0]).firstFault = none ∧ (at_ 255 [0x01]).firstFault = none := by decide

theorem witness_FaultChangesOnlyStatusAndCause :
    (at_ 0 [0x11]).haltCause = .none ∧
    (after (step (at_ 0 [0x11]))).map State.haltCause = some (.fault (.valueRangeFault 256)) := by decide

/-- The opcode byte of each of the twelve step rules, at 255, RUNNING, declared and decoded. -/
theorem witness_step_rules :
    ([0x82, 0x47, 0xA7, 0x54, 0x55, 0x56, 0x45, 0x46, 0x50, 0x11, 0x01, 0x00] : List Byte).all
      (fun b => decide ((at_ 255 [b]).opcodeByte = b ∧ (at_ 255 [b]).status = .running ∧ (at_ 255 [b]).pc ≤ 255 ∧
        (at_ 255 [b]).params.operandFetch = .declared ∧ (at_ 255 [b]).params.nopDecoded = true)) = true := by decide

/-- The clauses of the step rules at 254 and 253: operands in memory, legal and not. -/
theorem witness_step_rule_clauses :
    (at_ 254 [0x82, 0]).opcodeByte = 0x82 ∧ (at_ 253 [0x82, 7, 0]).byteA.toNat < 8 ∧
    ¬ (at_ 253 [0x82, 8, 0]).byteA.toNat < 8 ∧ (at_ 254 [0xA7, 0]).opcodeByte = 0xA7 ∧
    (at_ 253 [0xA7, 7, 7]).byteB.toNat < 8 ∧ ¬ (at_ 253 [0xA7, 7, 8]).byteB.toNat < 8 ∧
    (at_ 254 [0x45, 7]).byteA = 7 ∧ ¬ (at_ 254 [0x45, 8]).byteA.toNat < 8 ∧
    ((at_ 254 [0x45, 0]).setReg 7 0).reg 7 = 0 ∧ (at_ 254 [0x46, 0]).reg 7 = 0xFF ∧
    (stack 254 [0x46, 7] 0x80 0xFF).mem.read 0x80 = 0xFF ∧ (at_ 254 [0x50, 0]).pc = 254 := by decide

theorem witness_JumpsComplete : (State.reset.setFl 0x01).flagE = true ∧ (State.reset.setFl 0x06).flagE = false := by decide

/-- PUSH and CALL at SP = 1 under `validate` and at SP = 0 under `truncate`; CALL at 253. -/
theorem witness_PushCompletes_CallCompletes :
    ((at_ 253 []).setReg 7 1).sp ≠ 0 ∧ ((at_ 253 []).setReg 7 1).pc ≤ 253 ∧
    (((at_ 253 []).setReg 7 0).withPolicy .truncate).params.overflowPolicy ≠ .validate := by decide

/-- POP and RET at SP = 0xFE, POP R7 of 0xFE, and at SP = 0xFF under `truncate`. -/
theorem witness_PopCompletes_RetCompletes :
    (stack 0 [] 0xFE 0xFE).params.overflowPolicy = .validate ∧ (stack 0 [] 0xFE 0xFE).sp ≠ 0xFF ∧
    (stack 0 [] 0xFE 0xFE).mem.read (stack 0 [] 0xFE 0xFE).sp.toNat ≠ 0xFF ∧
    (State.reset.withPolicy .truncate).params.overflowPolicy ≠ .validate := by decide

/-- The pairs of E2, unsigned at 0x80 and 0x7F. -/
theorem witness_CompareIsUnsigned :
    Machine.compare 5 5 = 0x01 ∧ Machine.compare 0x80 0x7F = 0x02 ∧ Machine.compare 3 9 = 0x04 := by decide

theorem witness_FitKeepsFaultsOrWraps :
    fit8 .validate 0 = .ok 0 ∧ fit8 .validate 255 = .ok 0xFF ∧ fit8 .validate (-1) = .error (.valueRangeFault (-1)) ∧
    fit8 .truncate (-1) = .ok 0xFF ∧ fit8 .truncate 256 = .ok 0 := ⟨rfl, rfl, rfl, rfl, rfl⟩

/-- Images of 257 and 256 bytes (R231, R234), and the boundary of the image in a short one. -/
theorem witness_LaunchLoadsTheImageOverZeros :
    256 < (List.replicate 257 (1 : Byte)).length ∧ (List.replicate 256 (1 : Byte)).length ≤ 256 ∧
    ((State.launch Params.spec [0x82, 0, 8]).map fun t => (t.mem.read 2, t.mem.read 3, t.sp)) = some (8, 0, 0xFF) := by
  refine ⟨by rw [List.length_replicate]; omega, by rw [List.length_replicate], by decide⟩

theorem witness_LaunchMeetsTheInvariant : State.launch Params.spec [] = some State.reset := by decide

/-- The reset state, and a halted one, meet the invariant's parts. -/
theorem witness_StepKeepsTheInvariant :
    State.reset.Inv ∧ (after (step State.reset)).isSome = true := by
  refine ⟨⟨rfl, .inl rfl, by decide, by decide, trivial⟩, by decide⟩

/-- The changes that the whole-machine rules speak of happen. -/
theorem witness_machine_rules :
    (after (step (at_ 0 [0xA7, 0, 1]))).map State.fl ≠ some State.reset.fl ∧
    (after (step (at_ 0 [0x47, 0]))).map State.out ≠ some State.reset.out ∧
    (after (step (at_ 0 [0x45, 7]))).map (fun t => t.mem.read 0xFE) ≠ some 0 ∧
    (after (step (at_ 0 [0x50, 0]))).map (fun t => t.mem.read 0xFE) ≠ some 0 ∧
    (after (step (at_ 0 [0x82, 0, 1]))).map (fun t => t.reg 0) ≠ some 0 ∧
    (after (step (stack 0 [0x46, 0] 0xFE 1))).map (fun t => (t.reg 0, t.reg 7)) = some (1, 0xFF) ∧
    (after (step (at_ 0 [0x01]))).map State.status = some .halted ∧
    (after (step (State.reset.halt .hlt))).map State.haltCause = some .hlt := by decide

theorem witness_NextPcIsAsListed :
    (at_ 0 [0x50, 7]).status = .running ∧ (at_ 0 [0x50, 7]).haltCause = .none ∧
    (after (step (at_ 0 [0x50, 7]))).isSome = true := by decide

theorem witness_PushedByteIsFetchedNext :
    ((at_ 252 [0x45, 0]).sp ≠ 0) ∧ (at_ 252 [0x45, 0]).sp.toNat = (at_ 252 [0x45, 0]).pc + 3 := by decide

/-- A cell just past LDI's last byte, one just past POP's cell, one just below PUSH's. -/
theorem witness_UnreadCellDoesNotMatter :
    (at_ 0 [0x82, 0, 1]).mem.wf = true ∧ declaredOperands (at_ 0 [0x82, 0, 1]).opcodeByte = some 2 ∧ 0 + 2 < 3 ∧
    (stack 0 [0x46, 0] 0xFE 1).mem.wf = true ∧ 0xFF ≠ (stack 0 [0x46, 0] 0xFE 1).sp.toNat ∧
    (at_ 0 [0x45, 0]).mem.wf = true ∧ 0xFD ≠ ((at_ 0 [0x45, 0]).sp - 1).toNat ∧
    (after (step (at_ 0 [0x82, 0, 1]))).isSome = true := by decide

theorem witness_PoliciesDifferOnlyInRangeFaults :
    (after (step ((at_ 0 [0x45, 0]).withPolicy .validate))).map State.haltCause = some .none := by decide

/-- SP = 1; R7 popped after a pushed 0xFE, and after R7 pushed at SP = 0xFF. -/
theorem witness_PushThenPopRoundTrips :
    ((at_ 0 []).setReg 7 1).sp ≠ 0 ∧ ((at_ 0 []).setReg 0 0xFE).reg 0 ≠ 0xFF ∧ (at_ 0 []).sp - 1 ≠ 0xFF := by decide

theorem witness_CallThenReturnRoundTrips : (at_ 253 []).pc ≤ 253 ∧ ((at_ 253 []).setReg 7 1).sp ≠ 0 := by decide

end Sys2Proof.Tests
end

section
/-! PROOFS. Fetch, decode and dispatch (spec/40_fetch_decode_dispatch.md): a byte that selects no row of the opcode map. -/

namespace Sys2Proof.Machine

/-- The opcode bytes of the map (R80), in hexadecimal as R103 lists them. -/
theorem opcodeTable_patterns : opcodeTable.map OpcodeRow.pattern =
    [0x82, 0x47, 0xA7, 0x54, 0x55, 0x56, 0x45, 0x46, 0x50, 0x11, 0x01, 0x00] := rfl

/-- The fetch ends at the decode, before any operand is read, so the step faults at 255 as anywhere in memory. -/
theorem step_of_selectRow_none {s : State} (hs : s.status = .running) (hpc : s.pc < memSize)
    (hrow : selectRow s.params.nopDecoded s.opcodeByte = none) :
    step s = .next (s.faulted (.unknownOpcodeFault s.opcodeByte)) :=
  step_unfetched hs (fetchInstr_unknown hpc hrow)

/-- Settles O9: a byte outside the opcode map selects no row, whatever `NOP_DECODED` is. -/
theorem unknownOpcodeHaltsWithTheByte : Obligations.UnknownOpcodeHaltsWithTheByte := by
  intro s hs hpc hunknown
  rw [← opcodeTable_patterns] at hunknown
  have hrow : selectRow s.params.nopDecoded s.opcodeByte = none := selectRow_none_iff.mpr (.inl hunknown)
  exact step_of_selectRow_none hs (Nat.lt_succ_of_le hpc) hrow

end Sys2Proof.Machine
end

section
/-! PROOFS. The step by the format of the selected row (spec/40_fetch_decode_dispatch.md R104), and the validation of a register
operand at the commit (R105). -/

namespace Sys2Proof.Machine

section Formats

variable {s : State} {row : OpcodeRow} (hs : s.status = .running) (hdecl : s.params.operandFetch = .declared)
  (hpc : s.pc ≤ 255) (hrow : selectRow s.params.nopDecoded s.opcodeByte = some row)
include hs hdecl hpc hrow

/-- One declared operand (format R): past the top at 255 only. -/
theorem step_of_oneOperand {make : Byte → Instr}
    (hfmt : s.fetchOperands row.format = s.fetchOperand 1 >>= fun a => .ok (make a)) :
    step s = if s.pc = 255 then .next (s.faulted (.memoryBoundsError 256)) else exec (make s.byteA) s := by
  have hfetch := (fetchInstr_selected (Nat.lt_succ_of_le hpc) hrow).trans hfmt
  split
  next htop =>
    rw [fetchOperand_declared hdecl (show 256 ≤ s.pc + 1 by omega), htop] at hfetch
    exact step_unfetched hs hfetch
  next htop =>
    rw [fetchOperand_inside (show s.pc + 1 < 256 by omega)] at hfetch
    exact step_fetched hs hfetch

/-- Two declared operands (formats RI and RR): the first is past the top at 255, the second at 254. -/
theorem step_of_twoOperands {make : Byte → Byte → Instr}
    (hfmt : s.fetchOperands row.format =
      s.fetchOperand 1 >>= fun a => s.fetchOperand 2 >>= fun b => .ok (make a b)) :
    step s =
      if s.pc = 255 then .next (s.faulted (.memoryBoundsError (s.pc + 1)))
      else if s.pc = 254 then .next (s.faulted (.memoryBoundsError (s.pc + 2)))
      else exec (make s.byteA s.byteB) s := by
  have hfetch := (fetchInstr_selected (Nat.lt_succ_of_le hpc) hrow).trans hfmt
  split
  next htop =>
    rw [fetchOperand_declared hdecl (show 256 ≤ s.pc + 1 by omega)] at hfetch
    exact step_unfetched hs hfetch
  next htop =>
    rw [fetchOperand_inside (show s.pc + 1 < 256 by omega), effect_ok_bind] at hfetch
    split
    next hsecond =>
      rw [fetchOperand_declared hdecl (show 256 ≤ s.pc + 2 by omega)] at hfetch
      exact step_unfetched hs hfetch
    next hsecond =>
      rw [fetchOperand_inside (show s.pc + 2 < 256 by omega)] at hfetch
      exact step_fetched hs hfetch

end Formats

/-- A meaning that validates a register operand first: the rest of it on that register, or the fault with the operand byte. -/
theorem commit_regOperand_bind (s : State) (b : Byte) (f : RegIdx → Effect State) :
    commit s (regOperand b >>= f) =
      if h : b.toNat < 8 then commit s (f ⟨b.toNat, h⟩) else .next (s.faulted (.registerBoundsError b)) := by
  split
  next h => rw [regOperand_ok h, effect_ok_bind]
  next h => rw [regOperand_error (Nat.le_of_not_lt h), effect_error_bind, commit_error]

end Sys2Proof.Machine
end

section
/-! PROOFS. LDI and PRN at the step (spec/41_load_and_print.md). -/

namespace Sys2Proof.Machine

variable (s : State)

/-- LDI at every operand byte, legal or not. -/
theorem exec_ldi_byte (r imm : Byte) :
    exec (.ldi r imm) s =
      if h : r.toNat < 8 then .next ((s.setReg ⟨r.toNat, h⟩ imm).setPc (s.pc + 3))
      else .next (s.faulted (.registerBoundsError r)) :=
  commit_regOperand_bind s r _

/-- PRN at every operand byte, legal or not. -/
theorem exec_prn_byte (r : Byte) :
    exec (.prn r) s =
      if h : r.toNat < 8 then .next ((s.emit (s.reg ⟨r.toNat, h⟩)).setPc (s.pc + 2))
      else .next (s.faulted (.registerBoundsError r)) :=
  commit_regOperand_bind s r _

/-- Settles O15: 0x82 selects the row of LDI, whose two operands are fetched before the register operand is validated. -/
theorem ldiStep : Obligations.LdiStep := by
  intro s hs hdecl hpc hop
  have hrow : selectRow s.params.nopDecoded s.opcodeByte = some ⟨0b10000010, .ri .ldi⟩ := by rw [hop]; rfl
  rw [step_of_twoOperands hs hdecl hpc hrow rfl, exec_ldi_byte]
  split_ifs <;> rfl

/-- Settles O16: 0x47 selects the row of PRN, whose one operand is fetched before it is validated. -/
theorem prnStep : Obligations.PrnStep := by
  intro s hs hdecl hpc hop
  have hrow : selectRow s.params.nopDecoded s.opcodeByte = some ⟨0b01000111, .r .prn⟩ := by rw [hop]; rfl
  rw [step_of_oneOperand hs hdecl hpc hrow rfl, exec_prn_byte]
  split_ifs <;> rfl

end Sys2Proof.Machine
end

section
/-! PROOFS. The compare unit (spec/42_compare.md R140) and CMP at the step (R141). -/

namespace Sys2Proof.Machine

theorem compare_self (a : Byte) : compare a a = 0x01 := if_pos rfl

theorem compare_of_gt {a b : Byte} (h : b.toNat < a.toNat) : compare a b = 0x02 :=
  (if_neg h.ne').trans (if_pos h)

theorem compare_of_lt {a b : Byte} (h : a.toNat < b.toNat) : compare a b = 0x04 :=
  (if_neg h.ne).trans (if_neg h.asymm)

/-- Settles O36: one clause for each outcome of the unsigned comparison. -/
theorem compareIsUnsigned : Obligations.CompareIsUnsigned := by
  intro a b
  refine ⟨?equal, compare_of_gt, compare_of_lt⟩
  case equal =>
    rintro rfl
    exact compare_self a

/-- CMP at every pair of operand bytes, legal or not: `a` is validated before `b` (R105). -/
theorem exec_cmp_byte (s : State) (a b : Byte) :
    exec (.cmp a b) s =
      if ha : a.toNat < 8 then
        if hb : b.toNat < 8 then
          .next ((s.setFl (compare (s.reg ⟨a.toNat, ha⟩) (s.reg ⟨b.toNat, hb⟩))).setPc (s.pc + 3))
        else .next (s.faulted (.registerBoundsError b))
      else .next (s.faulted (.registerBoundsError a)) := by
  refine (commit_regOperand_bind s a _).trans (dite_congr rfl (fun ha => ?_) fun _ => rfl)
  exact commit_regOperand_bind s b _

/-- Settles O17: 0xA7 selects the row of CMP, whose two operands are both fetched before either is validated. -/
theorem cmpStep : Obligations.CmpStep := by
  intro s hs hdecl hpc hop
  have hrow : selectRow s.params.nopDecoded s.opcodeByte = some ⟨0b10100111, .rr .cmp⟩ := by rw [hop]; rfl
  rw [step_of_twoOperands hs hdecl hpc hrow rfl, exec_cmp_byte]
  -- The statement's cases are these, under one `.next`; `compare` is the choice of flags written out there.
  simp only [apply_ite Host.Outcome.next, apply_dite Host.Outcome.next]
  rfl

end Sys2Proof.Machine
end

section
/-! PROOFS. JMP, JEQ and JNE at the step (spec/43_jumps.md). -/

namespace Sys2Proof.Machine

section Condition

variable (s : State)

/-- The E flag as the parity of FL, which bits 1..7 do not touch (R24). -/
theorem flagE_iff : s.flagE ↔ s.fl.toNat % 2 = 1 := by
  rw [State.flagE, BitVec.getLsbD, Nat.testBit_zero, decide_eq_true_iff]

theorem not_flagE_iff : ¬ s.flagE ↔ s.fl.toNat % 2 = 0 :=
  (not_congr (flagE_iff s)).trans Nat.mod_two_ne_one

/-- JEQ with its condition on the byte FL. -/
theorem exec_jeq_parity (r : Byte) :
    exec (.jeq r) s = commit s (regOperand r >>= fun i =>
      .ok (s.setPc (if s.fl.toNat % 2 = 1 then (s.reg i).toNat else s.pc + 2))) := by
  simp only [← flagE_iff]
  rfl

/-- JNE with its condition on the byte FL; the model asks for E and jumps in the other branch. -/
theorem exec_jne_parity (r : Byte) :
    exec (.jne r) s = commit s (regOperand r >>= fun i =>
      .ok (s.setPc (if s.fl.toNat % 2 = 0 then (s.reg i).toNat else s.pc + 2))) := by
  simp only [← not_flagE_iff, ite_not]
  rfl

end Condition

/-- An instruction of one register operand that sets `pc` and nothing else: the operand is fetched, then validated, and only
then is the target chosen (R105). -/
theorem step_of_jump {s : State} {op : Byte} {make : Byte → Instr} {target : RegIdx → Nat} (hs : s.status = .running)
    (hdecl : s.params.operandFetch = .declared) (hpc : s.pc ≤ 255) (hop : s.opcodeByte = op)
    (hrow : selectRow s.params.nopDecoded op = some ⟨op, .r make⟩)
    (hexec : ∀ r, exec (make r) s = commit s (regOperand r >>= fun i => .ok (s.setPc (target i)))) :
    step s = .next (
      if s.pc = 255 then s.faulted (.memoryBoundsError 256)
      else if h : s.byteA.toNat < 8 then s.setPc (target ⟨s.byteA.toNat, h⟩)
      else s.faulted (.registerBoundsError s.byteA)) := by
  subst hop
  rw [step_of_oneOperand hs hdecl hpc hrow rfl, hexec, commit_regOperand_bind]
  split_ifs <;> rfl

/-- Settles O18: the byte is the pattern of JMP's row, and the target is `x[r]` in every state. -/
theorem jmpStep : Obligations.JmpStep := by
  intro s hs hdecl hpc hop
  exact step_of_jump hs hdecl hpc hop rfl fun _ => rfl

/-- Settles O19: the byte is the pattern of JEQ's row; bit 0 of FL chooses the target of an operand already validated. -/
theorem jeqStep : Obligations.JeqStep := by
  intro s hs hdecl hpc hop
  exact step_of_jump hs hdecl hpc hop rfl (exec_jeq_parity s)

/-- Settles O20: the byte is the pattern of JNE's row; bit 0 of FL chooses the target of an operand already validated. -/
theorem jneStep : Obligations.JneStep := by
  intro s hs hdecl hpc hop
  exact step_of_jump hs hdecl hpc hop rfl (exec_jne_parity s)

end Sys2Proof.Machine
end

section
/-! PROOFS. The decoder against the encoder (spec/30_encoding.md sections 1 to 3). -/

namespace Sys2Proof

/-- The operand bytes that a format takes, with the instruction that they make (R71). -/
inductive Format.Makes : Format → List Byte → Instr → Prop
  | z (i : Instr) : Makes (.z i) [] i
  | r (make : Byte → Instr) (a : Byte) : Makes (.r make) [a] (make a)
  | ri (make : Byte → Byte → Instr) (a b : Byte) : Makes (.ri make) [a, b] (make a b)
  | rr (make : Byte → Byte → Instr) (a b : Byte) : Makes (.rr make) [a, b] (make a b)

theorem Format.decode_of_makes {fmt : Format} {ops : List Byte} {i : Instr} (h : fmt.Makes ops i) (rest : List Byte) :
    fmt.decode (ops ++ rest) = .ok (i, rest) := by
  cases h <;> rfl

theorem Format.makes_of_decode {fmt : Format} {bytes : List Byte} {i : Instr} {rest : List Byte}
    (h : fmt.decode bytes = .ok (i, rest)) : ∃ ops, fmt.Makes ops i ∧ bytes = ops ++ rest := by
  match fmt, bytes, h with
  | .z _, _, rfl => exact ⟨[], .z _, rfl⟩
  | .r make, a :: _, rfl => exact ⟨[a], .r make a, rfl⟩
  | .ri make, a :: b :: _, rfl => exact ⟨[a, b], .ri make a b, rfl⟩
  | .rr make, a :: b :: _, rfl => exact ⟨[a, b], .rr make a b, rfl⟩

/-- The opcode map (R80) and the encoder agree on every row. -/
theorem encode_of_makes {row : OpcodeRow} (hrow : row ∈ opcodeTable) {ops : List Byte} {i : Instr}
    (h : row.format.Makes ops i) : row.pattern = i.opcode ∧ ops = i.operands := by
  simp only [opcodeTable, List.mem_cons, List.not_mem_nil, or_false] at hrow
  rcases hrow with rfl | rfl | rfl | rfl | rfl | rfl | rfl | rfl | rfl | rfl | rfl | rfl <;> cases h <;> exact ⟨rfl, rfl⟩

/-- The opcode of an instruction selects the row that makes it from its operands; NOP needs `NOP_DECODED` (93 I3). -/
theorem selectRow_opcode {nopDecoded : Bool} (i : Instr) (hnop : i = .nop → nopDecoded = true) :
    ∃ row, selectRow nopDecoded i.opcode = some row ∧ row.format.Makes i.operands i := by
  cases i with
  | ldi r imm => exact ⟨_, rfl, .ri _ r imm⟩
  | cmp a b => exact ⟨_, rfl, .rr _ a b⟩
  | prn r | jmp r | jeq r | jne r | push r | pop r | call r => exact ⟨_, rfl, .r _ r⟩
  | ret | hlt => exact ⟨_, rfl, .z _⟩
  | nop =>
    rw [hnop rfl]
    exact ⟨_, rfl, .z _⟩

/-- Selecting a row by its opcode byte and making an instruction of operand bytes is the inverse of the encoder. -/
theorem selectRow_makes_iff {nopDecoded : Bool} {ir : Byte} {ops : List Byte} {i : Instr} :
    (∃ row, selectRow nopDecoded ir = some row ∧ row.format.Makes ops i) ↔
      ir = i.opcode ∧ ops = i.operands ∧ (i = .nop → nopDecoded = true) := by
  constructor
  · rintro ⟨row, hrow, hmakes⟩
    obtain ⟨hmem, rfl⟩ := selectRow_mem hrow
    obtain ⟨hop, hops⟩ := encode_of_makes hmem hmakes
    refine ⟨hop, hops, ?_⟩
    rintro rfl
    rw [hop] at hrow
    cases nopDecoded with
    | true => rfl
    | false => cases hrow
  · rintro ⟨rfl, rfl, hnop⟩
    exact selectRow_opcode i hnop

theorem decode_cons_eq_ok_iff {nopDecoded : Bool} {ir : Byte} {tail : List Byte} {i : Instr} {rest : List Byte} :
    decode nopDecoded (ir :: tail) = .ok (i, rest) ↔
      ∃ row, selectRow nopDecoded ir = some row ∧ row.format.decode tail = .ok (i, rest) := by
  cases h : selectRow nopDecoded ir <;> simp [decode, h]

/-- Settles O2: the selected row and the operand bytes it takes are those of the encoding. -/
theorem decodeIsTheInverseOfEncode : Obligations.DecodeIsTheInverseOfEncode := by
  intro nopDecoded bytes i rest
  constructor
  · intro h
    cases bytes with
    | nil => cases h
    | cons ir tail =>
      obtain ⟨row, hrow, hdecode⟩ := decode_cons_eq_ok_iff.mp h
      obtain ⟨ops, hmakes, rfl⟩ := Format.makes_of_decode hdecode
      obtain ⟨rfl, rfl, hnop⟩ := selectRow_makes_iff.mp ⟨row, hrow, hmakes⟩
      exact ⟨rfl, hnop⟩
  · rintro ⟨rfl, hnop⟩
    obtain ⟨row, hrow, hmakes⟩ := selectRow_opcode i hnop
    exact decode_cons_eq_ok_iff.mpr ⟨row, hrow, Format.decode_of_makes hmakes rest⟩

theorem decode_encode (i : Instr) : decode true (encode i) = .ok (i, []) :=
  (decodeIsTheInverseOfEncode true _ i []).mpr ⟨(List.append_nil _).symm, fun _ => rfl⟩

/-- Settles O1: each pattern with its operand bytes is the encoding of its instruction, with nothing after it. -/
theorem opcodeBytesDecodeToTheirInstructions : Obligations.OpcodeBytesDecodeToTheirInstructions := by
  intro a b
  exact ⟨decode_encode (.ldi a b), decode_encode (.prn a), decode_encode (.cmp a b), decode_encode (.jmp a),
    decode_encode (.jeq a), decode_encode (.jne a), decode_encode (.push a), decode_encode (.pop a),
    decode_encode (.call a), decode_encode .ret, decode_encode .hlt, decode_encode .nop⟩

/-! ## The declared operand count -/

/-- The number of operand bytes a format takes (R71). -/
def Format.arity : Format → Nat
  | .z _ => 0
  | .r _ => 1
  | .ri _ | .rr _ => 2

theorem Format.Makes.length {fmt : Format} {ops : List Byte} {i : Instr} (h : fmt.Makes ops i) :
    ops.length = fmt.arity := by
  cases h <;> rfl

theorem declaredOperands_of_selectRow {nopDecoded : Bool} {ir : Byte} {row : OpcodeRow}
    (h : selectRow nopDecoded ir = some row) : Machine.declaredOperands ir = some row.format.arity := by
  obtain ⟨hmem, rfl⟩ := selectRow_mem h
  simp only [opcodeTable, List.mem_cons, List.not_mem_nil, or_false] at hmem
  rcases hmem with rfl | rfl | rfl | rfl | rfl | rfl | rfl | rfl | rfl | rfl | rfl | rfl <;> rfl

theorem declaredOperands_opcode (i : Instr) : Machine.declaredOperands i.opcode = some i.operands.length := by
  obtain ⟨row, hrow, hmakes⟩ := selectRow_opcode (nopDecoded := true) i fun _ => rfl
  rw [declaredOperands_of_selectRow hrow, hmakes.length]

/-- A byte that selects no row declares no operand count (R84), but for 0x00 where NOP is not decoded. -/
theorem declaredOperands_of_selectRow_none {nopDecoded : Bool} {ir : Byte} (h : selectRow nopDecoded ir = none) :
    Machine.declaredOperands ir = none ∨ (ir = 0x00 ∧ nopDecoded = false) := by
  rcases selectRow_none_iff.mp h with hunknown | hnop
  · left
    simp only [Machine.opcodeTable_patterns, List.mem_cons, List.not_mem_nil, or_false, not_or] at hunknown
    simp only [Machine.declaredOperands, List.mem_cons, List.not_mem_nil, hunknown, or_self, if_false]
  · exact .inr hnop

end Sys2Proof
end

section
/-! PROOFS. The fetch (spec/40_fetch_decode_dispatch.md R102 to R104): which instruction it answers, and which faults. -/

namespace Sys2Proof.Machine

variable {s : State}

/-! ## A fetch that answers an instruction -/

/-- The bytes that operand fetches answer, from the first one on. -/
def State.FetchesOperands (s : State) (ops : List Byte) : Prop :=
  ∀ k b, ops[k]? = some b → s.fetchOperand (k + 1) = .ok b

theorem fetchesOperands_nil : s.FetchesOperands [] := by
  intro k b h
  cases h

theorem fetchesOperands_one {a : Byte} : s.FetchesOperands [a] ↔ s.fetchOperand 1 = .ok a := by
  constructor
  · intro h
    exact h 0 a rfl
  · intro h k b hk
    match k, hk with
    | 0, rfl => exact h

theorem fetchesOperands_two {a b : Byte} :
    s.FetchesOperands [a, b] ↔ s.fetchOperand 1 = .ok a ∧ s.fetchOperand 2 = .ok b := by
  constructor
  · intro h
    exact ⟨h 0 a rfl, h 1 b rfl⟩
  · rintro ⟨ha, hb⟩ k c hk
    match k, hk with
    | 0, rfl => exact ha
    | 1, rfl => exact hb

/-- A format's operands are fetched exactly when the fetched bytes make the instruction. -/
theorem fetchOperands_eq_ok_iff {fmt : Format} {i : Instr} :
    s.fetchOperands fmt = .ok i ↔ ∃ ops, fmt.Makes ops i ∧ s.FetchesOperands ops := by
  constructor
  · intro h
    cases fmt with
    | z j =>
      cases h
      exact ⟨[], .z _, fetchesOperands_nil⟩
    | r make =>
      obtain ⟨a, ha, hmake⟩ := effect_bind_ok h
      cases hmake
      exact ⟨[a], .r make a, fetchesOperands_one.mpr ha⟩
    | ri make =>
      obtain ⟨a, ha, h⟩ := effect_bind_ok h
      obtain ⟨b, hb, hmake⟩ := effect_bind_ok h
      cases hmake
      exact ⟨[a, b], .ri make a b, fetchesOperands_two.mpr ⟨ha, hb⟩⟩
    | rr make =>
      obtain ⟨a, ha, h⟩ := effect_bind_ok h
      obtain ⟨b, hb, hmake⟩ := effect_bind_ok h
      cases hmake
      exact ⟨[a, b], .rr make a b, fetchesOperands_two.mpr ⟨ha, hb⟩⟩
  · rintro ⟨ops, hmakes, hops⟩
    cases hmakes with
    | z j => rfl
    | r make a => simp [State.fetchOperands, fetchesOperands_one.mp hops]
    | ri make a b | rr make a b => simp [State.fetchOperands, fetchesOperands_two.mp hops]

/-- The fetch answers an instruction exactly when `pc` is in memory, the byte there is its opcode, and its operand bytes are
fetched; NOP needs `NOP_DECODED`. -/
theorem fetchInstr_eq_ok_iff {i : Instr} :
    s.fetchInstr = .ok i ↔ s.pc < memSize ∧ s.opcodeByte = i.opcode ∧ s.FetchesOperands i.operands ∧
      (i = .nop → s.params.nopDecoded = true) := by
  constructor
  · intro h
    have hpc : s.pc < memSize := by
      by_contra hpast
      rw [fetchInstr_past_top (Nat.le_of_not_lt hpast)] at h
      cases h
    cases hrow : selectRow s.params.nopDecoded s.opcodeByte with
    | none =>
      rw [fetchInstr_unknown hpc hrow] at h
      cases h
    | some row =>
      rw [fetchInstr_selected hpc hrow] at h
      obtain ⟨ops, hmakes, hops⟩ := fetchOperands_eq_ok_iff.mp h
      obtain ⟨hop, rfl, hnop⟩ := selectRow_makes_iff.mp ⟨row, hrow, hmakes⟩
      exact ⟨hpc, hop, hops, hnop⟩
  · rintro ⟨hpc, hop, hops, hnop⟩
    obtain ⟨row, hrow, hmakes⟩ := selectRow_opcode i hnop
    rw [fetchInstr_selected hpc (hop ▸ hrow)]
    exact fetchOperands_eq_ok_iff.mpr ⟨i.operands, hmakes, hops⟩

theorem opcodeByte_of_fetched {i : Instr} (h : s.fetchInstr = .ok i) : s.opcodeByte = i.opcode :=
  (fetchInstr_eq_ok_iff.mp h).2.1

/-- When the opcode byte and the bytes that operand fetches answer decode to an instruction, the fetch answers it. -/
theorem fetchInstr_of_decode {tail : List Byte} {i : Instr} {rest : List Byte} (hpc : s.pc < memSize)
    (hdecode : decode s.params.nopDecoded (s.opcodeByte :: tail) = .ok (i, rest)) (htail : s.FetchesOperands tail) :
    s.fetchInstr = .ok i := by
  obtain ⟨hbytes, hnop⟩ := (decodeIsTheInverseOfEncode _ _ _ _).mp hdecode
  obtain ⟨hop, rfl⟩ := List.cons.inj hbytes
  refine fetchInstr_eq_ok_iff.mpr ⟨hpc, hop, fun k b hk => htail k b ?_, hnop⟩
  exact (List.getElem?_append_left (List.getElem?_eq_some_iff.mp hk).1).trans hk

/-! ## Operand fetches against the bytes of memory -/

theorem length_bytesAt (m : Memory) (a n : Nat) : (bytesAt m a n).length = n := by
  induction n generalizing a with
  | zero => rfl
  | succ n ih => simp [bytesAt, ih]

theorem getElem?_bytesAt (m : Memory) (a n k : Nat) :
    (bytesAt m a n)[k]? = if k < n then some (m.read (a + k)) else none := by
  induction n generalizing a k with
  | zero => rfl
  | succ n ih =>
    cases k with
    | zero => simp [bytesAt]
    | succ k => simp [bytesAt, ih, Nat.add_assoc, Nat.add_comm 1 k]

/-- In bounds, operand fetches answer the bytes of memory after the opcode byte. -/
theorem fetchOperand_of_bytesAt {n k : Nat} {b : Byte} (hn : s.pc + 1 + n ≤ memSize)
    (hk : (bytesAt s.mem (s.pc + 1) n)[k]? = some b) : s.fetchOperand (k + 1) = .ok b := by
  rw [getElem?_bytesAt] at hk
  split at hk
  next hlt =>
    have haddr : s.pc + (k + 1) = s.pc + 1 + k := by omega
    rw [fetchOperand_inside (by omega), haddr, ← Option.some.inj hk]
  next => cases hk

/-- Settles O3: the operand fetches answer the bytes after the opcode byte, which are all in memory. -/
theorem stepRunsTheDecodedInstruction : Obligations.StepRunsTheDecodedInstruction := by
  intro s n i rest hs hn hdecode
  cases n with
  | zero => cases hdecode
  | succ n =>
    have htail : s.FetchesOperands (bytesAt s.mem (s.pc + 1) n) :=
      fun k b => fetchOperand_of_bytesAt (show s.pc + 1 + n ≤ 256 by omega)
    exact step_fetched hs (fetchInstr_of_decode (show s.pc < 256 by omega) hdecode htail)

/-- Settles O4: past the bytes in memory, operand fetches answer the zero bytes that follow them. -/
theorem zeroFilledOperandsRunTheInstruction : Obligations.ZeroFilledOperandsRunTheInstruction := by
  intro s i rest hs hzero hpc hdecode
  have htail : s.FetchesOperands (bytesAt s.mem (s.pc + 1) (255 - s.pc) ++ [0, 0]) := by
    intro k b hk
    rw [List.getElem?_append, length_bytesAt] at hk
    split at hk
    next => exact fetchOperand_of_bytesAt (show s.pc + 1 + (255 - s.pc) ≤ 256 by omega) hk
    next hpast =>
      have hb : b = 0 := by simpa using List.mem_of_getElem? hk
      rw [hb]
      exact fetchOperand_zeroFill hzero (show 256 ≤ s.pc + (k + 1) by omega)
  rw [show 256 - s.pc = 255 - s.pc + 1 by omega] at hdecode
  exact step_fetched hs (fetchInstr_of_decode (show s.pc < 256 by omega) hdecode htail)

/-! ## A fetch that raises a fault -/

/-- An operand fetch raises one fault, past the top of memory and with `declared` alone. -/
theorem fetchOperand_error {k : Nat} {f : CoreFault} (h : s.fetchOperand k = .error f) :
    s.params.operandFetch = .declared ∧ 256 ≤ s.pc + k ∧ f = .memoryBoundsError (s.pc + k) := by
  by_cases htop : s.pc + k < memSize
  · rw [fetchOperand_inside htop] at h
    cases h
  · have hpast : 256 ≤ s.pc + k := Nat.le_of_not_lt htop
    cases hp : s.params.operandFetch with
    | declared =>
      rw [fetchOperand_declared hp hpast] at h
      cases h
      exact ⟨rfl, hpast, rfl⟩
    | zeroFill =>
      rw [fetchOperand_zeroFill hp hpast] at h
      cases h

theorem fetchOperand_declared_ok {k : Nat} {b : Byte} (hdecl : s.params.operandFetch = .declared)
    (h : s.fetchOperand k = .ok b) : s.pc + k < 256 ∧ b = s.mem.read (s.pc + k) := by
  by_cases htop : s.pc + k < memSize
  · rw [fetchOperand_inside htop] at h
    exact ⟨htop, (Except.ok.inj h).symm⟩
  · rw [fetchOperand_declared hdecl (Nat.le_of_not_lt htop)] at h
    cases h

/-- Two operand fetches in order: the second one alone faults only where its address is 256. -/
theorem fetchTwo_error {make : Byte → Byte → Instr} {f : CoreFault} (hpc : s.pc ≤ 255)
    (h : (s.fetchOperand 1 >>= fun a => s.fetchOperand 2 >>= fun b => .ok (make a b)) = .error f) :
    s.params.operandFetch = .declared ∧ 256 ≤ s.pc + 2 ∧ f = .memoryBoundsError 256 := by
  cases h1 : s.fetchOperand 1 with
  | error g =>
    rw [h1, effect_error_bind] at h
    cases h
    obtain ⟨hdecl, hpast, rfl⟩ := fetchOperand_error h1
    exact ⟨hdecl, by omega, congrArg _ (by omega)⟩
  | ok a =>
    rw [h1, effect_ok_bind] at h
    cases h2 : s.fetchOperand 2 with
    | error g =>
      rw [h2, effect_error_bind] at h
      cases h
      obtain ⟨hdecl, hpast, rfl⟩ := fetchOperand_error h2
      have hfirst := (fetchOperand_declared_ok hdecl h1).1
      exact ⟨hdecl, hpast, congrArg _ (by omega)⟩
    | ok b =>
      rw [h2] at h
      cases h

/-- The operands of a format fault in one way: past the top of memory, where the first byte out of it is at 256 (D3). -/
theorem fetchOperands_error {fmt : Format} {f : CoreFault} (hpc : s.pc ≤ 255) (h : s.fetchOperands fmt = .error f) :
    s.params.operandFetch = .declared ∧ 256 ≤ s.pc + fmt.arity ∧ f = .memoryBoundsError 256 := by
  cases fmt with
  | z i => cases h
  | r make =>
    cases h1 : s.fetchOperand 1 with
    | error g =>
      rw [State.fetchOperands, h1, effect_error_bind] at h
      cases h
      obtain ⟨hdecl, hpast, rfl⟩ := fetchOperand_error h1
      exact ⟨hdecl, hpast, congrArg _ (by omega)⟩
    | ok a =>
      rw [State.fetchOperands, h1] at h
      cases h
  | ri make => exact fetchTwo_error hpc h
  | rr make => exact fetchTwo_error hpc h

/-- With declared operands, an instruction is fetched only from bytes that all lie in memory. -/
theorem fetchesOperands_declared {ops : List Byte} (hdecl : s.params.operandFetch = .declared) (hpc : s.pc < 256)
    (h : s.FetchesOperands ops) : s.pc + ops.length < 256 := by
  cases hlen : ops.length with
  | zero => exact hpc
  | succ n =>
    have hlast : ops[n]? = some ops[n] := List.getElem?_eq_getElem (by omega)
    exact (fetchOperand_declared_ok hdecl (h n _ hlast)).1

/-- The faults of a fetch (items 1 to 4 of R108): `pc` past the top, an unknown opcode byte, and a declared operand past the
top. -/
inductive FetchFault (s : State) : CoreFault → Prop
  | pastTop (h : 256 ≤ s.pc) : FetchFault s (.memoryBoundsError s.pc)
  | unknown (h : s.pc ≤ 255) (hrow : selectRow s.params.nopDecoded s.opcodeByte = none) :
      FetchFault s (.unknownOpcodeFault s.opcodeByte)
  | operand (h : s.pc ≤ 255) (hdecl : s.params.operandFetch = .declared) (n : Nat)
      (hn : declaredOperands s.opcodeByte = some n) (hpast : 256 ≤ s.pc + n) : FetchFault s (.memoryBoundsError 256)

theorem fetchFault_of_error {f : CoreFault} (h : s.fetchInstr = .error f) : FetchFault s f := by
  by_cases hpc : s.pc < 256
  · cases hrow : selectRow s.params.nopDecoded s.opcodeByte with
    | none =>
      rw [fetchInstr_unknown hpc hrow] at h
      cases h
      exact .unknown (Nat.le_of_lt_succ hpc) hrow
    | some row =>
      rw [fetchInstr_selected hpc hrow] at h
      obtain ⟨hdecl, hpast, rfl⟩ := fetchOperands_error (Nat.le_of_lt_succ hpc) h
      exact .operand (Nat.le_of_lt_succ hpc) hdecl _ (declaredOperands_of_selectRow hrow) hpast
  · rw [fetchInstr_past_top (Nat.le_of_not_lt hpc)] at h
    cases h
    exact .pastTop (Nat.le_of_not_lt hpc)

/-- Settles O7: the fetch of the opcode byte reads at `pc`. -/
theorem fetchPastTheTopHalts : Obligations.FetchPastTheTopHalts := by
  intro s hs hpc
  exact step_unfetched hs (fetchInstr_past_top hpc)

/-- Settles O8: such an instruction cannot be fetched, and the fetch of a known opcode byte in memory has no other fault. -/
theorem operandPastTheTopHalts : Obligations.OperandPastTheTopHalts := by
  intro s n hs hdecl hpc hn hpast
  cases h : s.fetchInstr with
  | ok i =>
    obtain ⟨-, hop, hops, -⟩ := fetchInstr_eq_ok_iff.mp h
    have hinside := fetchesOperands_declared hdecl (by omega) hops
    rw [hop, declaredOperands_opcode] at hn
    cases hn
    omega
  | error f =>
    rw [step_unfetched hs h]
    cases fetchFault_of_error h with
    | pastTop htop => omega
    | operand => rfl
    | unknown _ hrow =>
      rcases declaredOperands_of_selectRow_none hrow with hnone | ⟨hzero, -⟩
      · rw [hnone] at hn
        cases hn
      · rw [hzero] at hn
        cases hn
        omega

/-- Settles O10: without `NOP_DECODED`, 0x00 selects no row. -/
theorem undecodedNopIsUnknown : Obligations.UndecodedNopIsUnknown := by
  intro s hs hnop hpc hop
  have hrow : selectRow s.params.nopDecoded s.opcodeByte = none := selectRow_none_iff.mpr (.inr ⟨hop, hnop⟩)
  rw [step_of_selectRow_none hs (Nat.lt_succ_of_le hpc) hrow, hop]

end Sys2Proof.Machine
end

section
/-! PROOFS. Everything a step can do (spec/40_fetch_decode_dispatch.md R100, R101), as one relation that the step decides. -/

namespace Sys2Proof.Machine

variable {s t : State} {i : Instr}

/-! ## Meanings -/

theorem exec_next (i : Instr) (s : State) : ∃ t, exec i s = .next t := by
  cases i with
  | hlt => exact ⟨_, exec_hlt s⟩
  | nop => exact ⟨_, exec_nop s⟩
  | _ => exact commit_next s _

/-- Settles O6: each way a step goes answers a next state. -/
theorem stepAlwaysAnswersANextState : Obligations.StepAlwaysAnswersANextState := by
  intro s
  cases hs : s.status with
  | halted => exact ⟨s, by simp [step, hs, stayHalted]⟩
  | running =>
    cases hf : s.fetchInstr with
    | error f => exact ⟨_, step_unfetched hs hf⟩
    | ok i =>
      rw [step_fetched hs hf]
      exact exec_next i s

theorem exec_of_ran (h : Ran s i t) : exec i s = .next t := by
  cases h with
  | ldi r imm => exact exec_ldi s r imm
  | prn r => exact exec_prn s r
  | cmp a b => exact exec_cmp s a b
  | jmp r => exact exec_jmp s r
  | jeq r => exact exec_jeq s r
  | jne r => exact exec_jne s r
  | push r h => exact exec_push_ok s r h
  | pop r h => exact exec_pop_ok s r h
  | call r h => exact exec_call_ok s r h
  | ret h => exact exec_ret_ok s h
  | hlt => rfl
  | nop => rfl

theorem wellFormed_of_ran (h : Ran s i t) : i.wellFormed = true := by
  cases h <;> simp [Instr.wellFormed, Instr.regOperands, regByte_toNat]

theorem wellFormed_of_outOfRange {v : Int} (h : OutOfRange s i v) : i.wellFormed = true := by
  cases h <;> simp [Instr.wellFormed, Instr.regOperands, regByte_toNat]

/-- A legal instruction has no illegal register operand (R85). -/
theorem find_illegal_of_wellFormed (h : i.wellFormed = true) :
    i.regOperands.find? (fun r => decide (8 ≤ r.toNat)) = none := by
  rw [List.find?_eq_none]
  intro b hb
  have hlegal : b.toNat < 8 := by simpa using List.all_eq_true.mp h b hb
  simpa using hlegal

theorem illegal_of_find {b : Byte} (h : i.regOperands.find? (fun r => decide (8 ≤ r.toNat)) = some b) : 8 ≤ b.toNat := by
  simpa using List.find?_some h

/-- Settles O11: of the outcomes of a meaning, the two others need legal register operands. -/
theorem illegalRegisterOperandHalts : Obligations.IllegalRegisterOperandHalts := by
  intro i s b hb
  obtain ⟨t, h⟩ := exec_next i s
  rw [h]
  obtain hran | ⟨b', hb', rfl⟩ | ⟨-, v, hrange, -⟩ := exec_cases h
  · rw [find_illegal_of_wellFormed (wellFormed_of_ran hran)] at hb
    cases hb
  · rw [hb] at hb'
    cases hb'
    rfl
  · rw [find_illegal_of_wellFormed (wellFormed_of_outOfRange hrange)] at hb
    cases hb

theorem exec_of_outOfRange {v : Int} (hp : s.params.overflowPolicy = .validate) (h : OutOfRange s i v) :
    exec i s = .next (s.faulted (.valueRangeFault v)) := by
  cases h with
  | push r h => rw [exec_push, hp, h, spDec_error]; rfl
  | pop r h => rw [exec_pop, hp, h, spInc_error]; rfl
  | callSp r h => rw [exec_call, hp, h, spDec_error]; rfl
  | callPc r h hpc => rw [exec_call, spDec_ok fun _ => h, hp, retAddr_error hpc]; rfl
  | ret h => rw [exec_ret, hp, h, spInc_error]; rfl

/-- The value of a range fault is no byte (R204). -/
theorem outOfRange_value {v : Int} (h : OutOfRange s i v) : v < 0 ∨ 255 < v := by
  cases h <;> omega

/-! ## The run state of an instruction that runs through -/

/-- HLT alone writes the run state (R180). -/
theorem runState_of_ran (h : Ran s i t) : (i = .hlt ∧ t = s.halt .hlt) ∨ (i ≠ .hlt ∧ SameRun s t) := by
  cases h with
  | hlt => exact .inl ⟨rfl, rfl⟩
  | _ => exact .inr ⟨nofun, rfl, rfl⟩

/-- Settles O12: a legal instruction runs through or takes one of the value-range faults. -/
theorem handlersRaiseOnlyRangeFaults : Obligations.HandlersRaiseOnlyRangeFaults := by
  intro i s t hlegal h
  obtain hran | ⟨b, hb, -⟩ | ⟨hp, v, hrange, rfl⟩ := exec_cases h
  · cases hran with
    | hlt => exact ⟨rfl, rfl⟩
    | ldi | prn | cmp | jmp | jeq | jne | nop => exact ⟨rfl, rfl⟩
    | push | pop | call | ret => exact .inl ⟨rfl, rfl⟩
  · rw [find_illegal_of_wellFormed hlegal] at hb
    cases hb
  · have hv := outOfRange_value hrange
    cases hrange <;> exact .inr ⟨hp, _, hv, rfl⟩

/-! ## Steps -/

/-- The faults a RUNNING state takes: those of its fetch, then the first illegal register operand of the fetched instruction,
then, under `validate`, its value out of range. -/
inductive Raises (s : State) : CoreFault → Prop
  | fetch {f : CoreFault} (h : s.fetchInstr = .error f) : Raises s f
  | operand {i : Instr} {b : Byte} (h : s.fetchInstr = .ok i)
      (hb : i.regOperands.find? (fun r => decide (8 ≤ r.toNat)) = some b) : Raises s (.registerBoundsError b)
  | range {i : Instr} {v : Int} (h : s.fetchInstr = .ok i) (hp : s.params.overflowPolicy = .validate)
      (hv : OutOfRange s i v) : Raises s (.valueRangeFault v)

/-- What a step answers. -/
inductive StepsTo (s : State) : State → Prop
  | halted (hs : s.status = .halted) : StepsTo s s
  | faulted (hs : s.status = .running) {f : CoreFault} (hf : Raises s f) : StepsTo s (s.faulted f)
  | ran (hs : s.status = .running) {i : Instr} {t : State} (h : s.fetchInstr = .ok i) (hran : Ran s i t) : StepsTo s t

theorem step_of_raises {f : CoreFault} (hs : s.status = .running) (h : Raises s f) : step s = .next (s.faulted f) := by
  cases h with
  | fetch h => exact step_unfetched hs h
  | operand h hb => rw [step_fetched hs h, illegalRegisterOperandHalts _ _ _ hb]
  | range h hp hv => rw [step_fetched hs h, exec_of_outOfRange hp hv]

theorem step_iff : step s = .next t ↔ StepsTo s t := by
  constructor
  · intro h
    obtain ⟨hs, rfl⟩ | ⟨hs, f, hf, rfl⟩ | ⟨hs, i, hi, hexec⟩ := step_cases h
    · exact .halted hs
    · exact .faulted hs (.fetch hf)
    · obtain hran | ⟨b, hb, rfl⟩ | ⟨hp, v, hv, rfl⟩ := exec_cases hexec
      · exact .ran hs hi hran
      · exact .faulted hs (.operand hi hb)
      · exact .faulted hs (.range hi hp hv)
  · intro h
    cases h with
    | halted hs => simp [step, hs, stayHalted]
    | faulted hs hf => exact step_of_raises hs hf
    | ran hs hi hran => rw [step_fetched hs hi, exec_of_ran hran]

/-- Settles O5: no instruction runs in HALTED. -/
theorem haltedStepKeepsTheState : Obligations.HaltedStepKeepsTheState := by
  intro s hs
  exact step_iff.mpr (.halted hs)

/-- Settles O14: an instruction that runs through leaves no fault as the cause, and every fault is taken as `faulted`. -/
theorem faultChangesOnlyStatusAndCause : Obligations.FaultChangesOnlyStatusAndCause := by
  intro s t f hnone h hf
  cases step_iff.mp h with
  | halted =>
    rw [hnone] at hf
    cases hf
  | faulted _ hraises =>
    cases hf
    rfl
  | ran _ _ hran =>
    obtain ⟨-, rfl⟩ | ⟨-, -, hsame⟩ := runState_of_ran hran
    · cases hf
    · rw [hsame, hnone] at hf
      cases hf

end Sys2Proof.Machine
end

section
/-! PROOFS. The invariant (spec/10_state.md, spec/60_exceptions.md section 1): every step keeps it. -/

namespace Sys2Proof.Machine

variable {s t : State} {i : Instr}

/-! ## What an instruction that runs through leaves -/

theorem params_of_ran (h : Ran s i t) : t.params = s.params := by
  cases h <;> rfl

theorem memWf_of_ran (h : Ran s i t) (hm : s.mem.wf = true) : t.mem.wf = true := by
  cases h with
  | push => exact Memory.write_wf _ _ _ hm (BitVec.isLt _)
  | call => exact Memory.write_wf _ _ _ hm (BitVec.isLt _)
  | _ => exact hm

theorem compare_flLegal (a b : Byte) : FlLegal (compare a b) := by
  obtain hlt | heq | hgt := Nat.lt_trichotomy a.toNat b.toNat
  · exact .inr (.inr (.inr (compare_of_lt hlt)))
  · exact .inr (.inl (if_pos heq))
  · exact .inr (.inr (.inl (compare_of_gt hgt)))

theorem flLegal_of_ran (h : Ran s i t) (hfl : FlLegal s.fl) : FlLegal t.fl := by
  cases h with
  | cmp a b => exact compare_flLegal _ _
  | _ => exact hfl

/-- The next `pc` is at most the end of the instruction, or a byte (R13). -/
theorem pc_of_ran (h : Ran s i t) : t.pc ≤ s.pc + i.length ∨ t.pc ≤ 255 := by
  cases h with
  | jmp | call | ret => exact .inr (Nat.le_of_lt_succ (BitVec.isLt _))
  | jeq r | jne r =>
    have hr : (s.reg r).toNat ≤ 255 := Nat.le_of_lt_succ (BitVec.isLt _)
    rw [setPc_pc]
    split <;> simp [hr, Instr.length]
  | hlt => exact .inl (Nat.le_add_right _ _)
  | ldi | prn | cmp | push | pop | nop => exact .inl le_rfl

/-! ## The range of `pc` -/

theorem length_eq_operands (i : Instr) : i.length = i.operands.length + 1 := by
  cases i <;> rfl

theorem length_le_three (i : Instr) : i.length ≤ 3 := by
  cases i <;> simp [Instr.length]

theorem top_le_pcMax (p : Params) : 256 ≤ pcMax p := by
  unfold pcMax
  split <;> decide

/-- A fetched instruction ends at most at the largest `pc`. -/
theorem end_le_pcMax_of_fetched (h : s.fetchInstr = .ok i) : s.pc + i.length ≤ pcMax s.params := by
  obtain ⟨hpc, -, hops, -⟩ := fetchInstr_eq_ok_iff.mp h
  cases hp : s.params.operandFetch with
  | declared =>
    have hinside := fetchesOperands_declared hp hpc hops
    simp only [pcMax, hp, length_eq_operands]
    omega
  | zeroFill =>
    have hlen := length_le_three i
    have htop : s.pc < 256 := hpc
    simp only [pcMax, hp]
    omega

theorem pcInRange_of_ran (h : s.fetchInstr = .ok i) (hran : Ran s i t) : t.pc ≤ pcMax s.params := by
  have hend := end_le_pcMax_of_fetched h
  have htop := top_le_pcMax s.params
  obtain hpc | hpc := pc_of_ran hran <;> omega

/-! ## The infos of the halt cause -/

theorem causeLegal_of_fetchFault {f : CoreFault} (hpc : s.pc ≤ pcMax s.params) (h : FetchFault s f) :
    CauseLegal s.params (.fault f) := by
  cases h with
  | pastTop htop => exact ⟨htop, hpc⟩
  | unknown _ hrow => exact declaredOperands_of_selectRow_none hrow
  | operand => exact ⟨le_rfl, top_le_pcMax _⟩

/-- The value of a range fault is -1 or 256, or 257 for the return address of a CALL at 255, whose operand byte is then past
the top of memory (log entry 10). -/
theorem outOfRange_value_cases {v : Int} (h : s.fetchInstr = .ok i) (hv : OutOfRange s i v) :
    v = -1 ∨ v = 256 ∨ (v = 257 ∧ s.params.operandFetch = .zeroFill) := by
  cases hv with
  | push | callSp => exact .inl rfl
  | pop | ret => exact .inr (.inl rfl)
  | callPc r _ hpc =>
    have hend := end_le_pcMax_of_fetched h
    cases hp : s.params.operandFetch with
    | declared =>
      simp only [pcMax, hp, Instr.length] at hend
      omega
    | zeroFill =>
      have htop : s.pc < 256 := (fetchInstr_eq_ok_iff.mp h).1
      simp only [and_true]
      omega

theorem causeLegal_of_raises {f : CoreFault} (hpc : s.pc ≤ pcMax s.params) (h : Raises s f) :
    CauseLegal s.params (.fault f) := by
  cases h with
  | fetch h => exact causeLegal_of_fetchFault hpc (fetchFault_of_error h)
  | operand _ hb => exact illegal_of_find hb
  | range h hp hv => exact ⟨hp, outOfRange_value_cases h hv⟩

/-! ## The invariant -/

theorem inv_of_faulted {f : CoreFault} (h : s.Inv) (hf : Raises s f) : (s.faulted f).Inv where
  memWf := h.memWf
  flLegal := h.flLegal
  pcInRange := h.pcInRange
  noneRunning := ⟨nofun, nofun⟩
  causeLegal := (causeLegal_of_raises h.pcInRange hf : CauseLegal s.params _)

theorem inv_of_ran (hs : s.status = .running) (h : s.Inv) (hi : s.fetchInstr = .ok i) (hran : Ran s i t) : t.Inv where
  memWf := memWf_of_ran hran h.memWf
  flLegal := flLegal_of_ran hran h.flLegal
  pcInRange := params_of_ran hran ▸ pcInRange_of_ran hi hran
  noneRunning := by
    obtain ⟨-, rfl⟩ | ⟨-, hstatus, hcause⟩ := runState_of_ran hran
    · exact ⟨nofun, nofun⟩
    · rw [hstatus, hcause]
      exact h.noneRunning
  causeLegal := by
    obtain ⟨-, rfl⟩ | ⟨-, -, hcause⟩ := runState_of_ran hran
    · trivial
    · rw [hcause, h.noneRunning.mp hs]
      trivial

/-- Settles O42: a halted state is kept, a fault has a legal info, and an instruction that runs through keeps each part. -/
theorem stepKeepsTheInvariant : Obligations.StepKeepsTheInvariant := by
  intro s t h hstep
  cases step_iff.mp hstep with
  | halted => exact h
  | faulted _ hf => exact inv_of_faulted h hf
  | ran hs hi hran => exact inv_of_ran hs h hi hran

/-- Settles O43: no update that a step makes touches the parameters. -/
theorem stepKeepsTheParameters : Obligations.StepKeepsTheParameters := by
  intro s t hstep
  cases step_iff.mp hstep with
  | halted => rfl
  | faulted => rfl
  | ran _ _ hran => exact params_of_ran hran

end Sys2Proof.Machine
end

section
/-! PROOFS. Launch and reset (spec/70_reset_and_hazards.md R230, R234; spec/10_state.md R30). -/

namespace Sys2Proof.Machine

/-- The state that the launch sequence leaves for an image that can be loaded. -/
def State.launched (p : Params) (image : List Byte) : State :=
  ((State.construct p).setMem (Memory.storeBytes [] 0 image)).start

theorem launch_fits {p : Params} {image : List Byte} (h : image.length ≤ 256) :
    State.launch p image = some (State.launched p image) := by
  rw [State.launch, State.load, if_pos h]
  rfl

theorem launch_too_long {p : Params} {image : List Byte} (h : 256 < image.length) : State.launch p image = none := by
  rw [State.launch, State.load, if_neg (Nat.not_le.mpr h)]
  rfl

theorem launched_reg (p : Params) (image : List Byte) (i : RegIdx) :
    (State.launched p image).reg i = if i = 7 then 0xFF else 0x00 := by
  have hzero : ((State.construct p).setMem (Memory.storeBytes [] 0 image)).reg i = 0x00 := by
    simp [State.reg, State.construct, Vector.get_eq_getElem]
  exact (reg_setReg _ _ _ _).trans (by rw [hzero])

theorem launched_read_inside (p : Params) {image : List Byte} (hfits : image.length ≤ 256) {a : Nat}
    (h : a < image.length) : (State.launched p image).mem.read a = image[a] :=
  (Memory.read_storeBytes image [] 0 a (h.trans_le hfits)).trans (dif_pos ⟨a.zero_le, h⟩)

theorem launched_read_after (p : Params) {image : List Byte} {a : Nat} (h : image.length ≤ a) (ha : a ≤ 255) :
    (State.launched p image).mem.read a = 0x00 :=
  (Memory.read_storeBytes image [] 0 a (Nat.lt_succ_of_le ha)).trans (dif_neg fun h' => Nat.not_lt.mpr h h'.2)

/-- Settles O38: the load stores the image over zeros, and the other steps set each remaining part. -/
theorem launchLoadsTheImageOverZeros : Obligations.LaunchLoadsTheImageOverZeros := by
  intro p image
  refine ⟨launch_too_long, fun hfits => ?_⟩
  refine ⟨_, launch_fits hfits, launched_reg p image, rfl, rfl, ?inside, ?after, rfl, rfl, rfl, rfl⟩
  case inside => exact fun a h => launched_read_inside p hfits h
  case after => exact fun a h ha => launched_read_after p h ha

theorem launched_inv (p : Params) (image : List Byte) : (State.launched p image).Inv where
  memWf := Memory.storeBytes_wf image [] 0 rfl
  flLegal := .inl rfl
  pcInRange := Nat.zero_le _
  noneRunning := ⟨fun _ => rfl, fun _ => rfl⟩
  causeLegal := trivial

/-- Settles O41: an image that launches fits in memory. -/
theorem launchMeetsTheInvariant : Obligations.LaunchMeetsTheInvariant := by
  intro p image t h
  by_cases hfits : image.length ≤ 256
  · rw [launch_fits hfits] at h
    cases h
    exact launched_inv p image
  · rw [launch_too_long (Nat.lt_of_not_le hfits)] at h
    cases h

/-- Settles O39: with no image byte to store, the launch sequence runs to the reset values. -/
theorem resetIsTheEmptyLaunch : Obligations.ResetIsTheEmptyLaunch := rfl

/-- Settles O40: the reset state is a launch state. -/
theorem resetMeetsTheInvariant : Obligations.ResetMeetsTheInvariant :=
  launchMeetsTheInvariant _ _ _ resetIsTheEmptyLaunch

end Sys2Proof.Machine
end

section
/-! PROOFS. What a step may change: flags, output, memory, registers, `pc` and the run state (spec/10_state.md,
spec/20_memory.md section 1). Each rule is read off the instructions that run through, since a fault changes the run state alone. -/

namespace Sys2Proof.Machine

/-- Settles O44: of the instructions that run through, CMP alone sets FL. -/
theorem onlyCmpWritesTheFlags : Obligations.OnlyCmpWritesTheFlags := by
  intro s t hstep hfl
  cases step_iff.mp hstep with
  | halted => exact absurd rfl hfl
  | faulted => exact absurd rfl hfl
  | ran hs hi hran =>
    cases hran with
    | cmp => exact ⟨hs, opcodeByte_of_fetched hi⟩
    | _ => exact absurd rfl hfl

/-- Settles O45: of the instructions that run through, PRN alone emits. -/
theorem onlyPrnEmits : Obligations.OnlyPrnEmits := by
  intro s t hstep hout
  cases step_iff.mp hstep with
  | halted => exact absurd rfl hout
  | faulted => exact absurd rfl hout
  | ran hs hi hran =>
    cases hran with
    | prn r => exact ⟨hs, r, hi, rfl⟩
    | _ => exact absurd rfl hout

/-- A write changes no cell but its own. -/
theorem eq_of_read_write_ne {m : Memory} {a b : Nat} {v : Byte} (h : (m.write b v).read a ≠ m.read a) : a = b := by
  by_contra hne
  exact h ((Memory.read_write m b a v).trans (if_neg hne))

/-- Settles O46: of the instructions that run through, PUSH and CALL alone store, at the SP they leave. -/
theorem onlyPushAndCallWriteMemory : Obligations.OnlyPushAndCallWriteMemory := by
  intro s t a hstep hread
  cases step_iff.mp hstep with
  | halted => exact absurd rfl hread
  | faulted => exact absurd rfl hread
  | ran hs hi hran =>
    cases hran with
    | push =>
      obtain rfl := eq_of_read_write_ne hread
      exact ⟨hs, .inl (opcodeByte_of_fetched hi), by simp, by simp⟩
    | call =>
      obtain rfl := eq_of_read_write_ne hread
      exact ⟨hs, .inr (opcodeByte_of_fetched hi), by simp, by simp⟩
    | _ => exact absurd rfl hread

/-- A register write changes no register but its own. -/
theorem eq_of_reg_setReg_ne {s : State} {i r : RegIdx} {v : Byte} (h : (s.setReg r v).reg i ≠ s.reg i) : i = r := by
  by_contra hne
  exact h ((reg_setReg s r i v).trans (if_neg hne))

/-- Settles O47: the register writes of the instructions that run through. -/
theorem registersAreWrittenAsListed : Obligations.RegistersAreWrittenAsListed := by
  intro s t i hstep hreg
  cases step_iff.mp hstep with
  | halted => exact absurd rfl hreg
  | faulted => exact absurd rfl hreg
  | ran hs hi hran =>
    refine ⟨hs, _, hi, ?_⟩
    cases hran with
    | ldi r =>
      obtain rfl : i = r := eq_of_reg_setReg_ne hreg
      exact regByte_toNat i
    | pop r =>
      by_cases hsp : i = 7
      · exact .inr hsp
      · have hpopped : (s.setReg r (s.mem.read s.sp.toNat)).reg i ≠ s.reg i := by simpa [hsp] using hreg
        obtain rfl := eq_of_reg_setReg_ne hpopped
        exact .inl (regByte_toNat i)
    | push | call | ret => exact eq_of_reg_setReg_ne hreg
    | _ => exact absurd rfl hreg

/-- Settles O48: a fault and HLT hold `pc`; CALL reads its register after SP is decremented. -/
theorem nextPcIsAsListed : Obligations.NextPcIsAsListed := by
  intro s t hs _ hstep
  cases step_iff.mp hstep with
  | halted hhalted => nomatch hs.symm.trans hhalted
  | faulted => exact .inl ⟨rfl, rfl⟩
  | ran _ hi hran =>
    cases hran with
    | hlt => exact .inl ⟨rfl, rfl⟩
    | jmp r | jeq r | jne r => exact .inr ⟨hs, _, hi, r, regByte_toNat r, rfl⟩
    | call r => exact .inr ⟨hs, _, hi, r, regByte_toNat r, by simp⟩
    | ldi | prn | cmp | push | pop | ret | nop => exact .inr ⟨hs, _, hi, rfl⟩

/-- Settles O49: a halted state is kept, and of the instructions that run through HLT alone halts. -/
theorem runEndsOnlyByHltOrAFault : Obligations.RunEndsOnlyByHltOrAFault := by
  intro s t hstep
  cases step_iff.mp hstep with
  | halted hs => exact ⟨fun h => ⟨h, rfl⟩, fun hrunning => (nomatch hs.symm.trans hrunning)⟩
  | faulted hs => exact ⟨fun hhalted => (nomatch hs.symm.trans hhalted), fun _ _ => .inr ⟨_, rfl⟩⟩
  | ran hs hi hran =>
    refine ⟨fun hhalted => (nomatch hs.symm.trans hhalted), fun _ hend => ?_⟩
    obtain ⟨rfl, rfl⟩ | ⟨-, hstatus, -⟩ := runState_of_ran hran
    · exact .inl ⟨opcodeByte_of_fetched hi, rfl⟩
    · exact nomatch hs.symm.trans (hstatus.symm.trans hend)

end Sys2Proof.Machine
end

section
/-! PROOFS. The order of fault checks (spec/40_fetch_decode_dispatch.md R108) and the list of value-range faults
(spec/60_exceptions.md R204), against the faults that a step raises. -/

namespace Sys2Proof.Machine

variable {s t : State} {i : Instr}

/-- The operand byte of R7; the literal stands in the form that `simp` writes. -/
theorem regByte_eq_seven_iff (r : RegIdx) : regByte r = 7#8 ↔ r = 7 := by
  revert r
  decide

theorem reg_seven (s : State) : s.reg 7 = s.sp := rfl

theorem ne_truncate_iff {p : OverflowPolicy} : p ≠ .truncate ↔ p = .validate := by
  cases p <;> decide

/-! ## The raw bytes of a fetched instruction -/

section Fetched

variable (hdecl : s.params.operandFetch = .declared) (hi : s.fetchInstr = .ok i)
include hdecl hi

theorem pc_operands_of_fetched : s.pc + i.operands.length ≤ 255 := by
  obtain ⟨hpc, -, hops, -⟩ := fetchInstr_eq_ok_iff.mp hi
  exact Nat.le_of_lt_succ (fetchesOperands_declared hdecl hpc hops)

theorem byteA_of_fetched {b : Byte} (hb : i.operands[0]? = some b) : s.byteA = b :=
  (fetchOperand_declared_ok hdecl ((fetchInstr_eq_ok_iff.mp hi).2.2.1 0 b hb)).2.symm

theorem byteB_of_fetched {b : Byte} (hb : i.operands[1]? = some b) : s.byteB = b :=
  (fetchOperand_declared_ok hdecl ((fetchInstr_eq_ok_iff.mp hi).2.2.1 1 b hb)).2.symm

/-- Items 5 and 6 of R108 are the search for the first illegal register operand. -/
theorem find_illegal_of_fetched : i.regOperands.find? (fun r => decide (8 ≤ r.toNat)) =
    if 1 ≤ i.operands.length ∧ 8 ≤ s.byteA.toNat then some s.byteA
    else if i.opcode = 0xA7 ∧ 8 ≤ s.byteB.toNat then some s.byteB
    else none := by
  cases i with
  | ldi r imm => simp [byteA_of_fetched hdecl hi rfl, Instr.regOperands, Instr.operands, Instr.opcode, List.find?_singleton]
  | cmp a b =>
    rw [byteA_of_fetched hdecl hi rfl, byteB_of_fetched hdecl hi rfl]
    by_cases ha : 8 ≤ a.toNat <;> simp [ha, Instr.regOperands, Instr.operands, Instr.opcode, List.find?_singleton]
  | prn r | jmp r | jeq r | jne r | push r | pop r | call r =>
    simp [byteA_of_fetched hdecl hi rfl, Instr.regOperands, Instr.operands, Instr.opcode, List.find?_singleton]
  | ret | hlt | nop => simp [Instr.regOperands, Instr.operands, Instr.opcode]

/-- After a fetch that answers an instruction, items 1 to 4 of R108 do not hold. -/
theorem firstFault_of_fetched : s.firstFault =
    ((i.regOperands.find? (fun r => decide (8 ≤ r.toNat))).map .registerBoundsError).or
      (s.rangeFault.map .valueRangeFault) := by
  have hend := pc_operands_of_fetched hdecl hi
  have h1 : ¬ (1 ≤ i.operands.length ∧ s.pc + 1 > 255) := by omega
  have h2 : ¬ (2 ≤ i.operands.length ∧ s.pc + 2 > 255) := by omega
  simp only [State.firstFault, opcodeByte_of_fetched hi, declaredOperands_opcode, find_illegal_of_fetched hdecl hi,
    if_neg (by omega : ¬ s.pc > 255), if_neg h1, if_neg h2]
  split_ifs <;> rfl

end Fetched

/-! ## The list of value-range faults -/

theorem rangeFault_truncate (hp : s.params.overflowPolicy = .truncate) : s.rangeFault = none := if_pos hp

section Validate

variable (hp : s.params.overflowPolicy = .validate)
include hp

theorem rangeFault_push (hop : s.opcodeByte = 0x45) : s.rangeFault = if s.sp = 0 then some (-1) else none := by
  simp [State.rangeFault, hp, hop, reg_seven]

theorem rangeFault_call (hop : s.opcodeByte = 0x50) :
    s.rangeFault = if s.sp = 0 then some (-1) else if s.pc = 254 then some 256 else none := by
  simp [State.rangeFault, hp, hop, reg_seven]

theorem rangeFault_pop {r : RegIdx} (hop : s.opcodeByte = 0x46) (hr : s.byteA = regByte r) :
    s.rangeFault = if (if r = 7 then s.mem.read s.sp.toNat else s.sp) = 0xFF then some 256 else none := by
  by_cases h7 : r = 7 <;> simp [State.rangeFault, hp, hop, hr, regByte_eq_seven_iff, h7, reg_seven]

theorem rangeFault_ret (hop : s.opcodeByte = 0x11) : s.rangeFault = if s.sp = 0xFF then some 256 else none := by
  simp [State.rangeFault, hp, hop, reg_seven]

end Validate

theorem rangeFault_of_outOfRange {v : Int} (hdecl : s.params.operandFetch = .declared) (hi : s.fetchInstr = .ok i)
    (hp : s.params.overflowPolicy = .validate) (h : OutOfRange s i v) : s.rangeFault = some v := by
  have hop := opcodeByte_of_fetched hi
  cases h with
  | push r h => rw [rangeFault_push hp hop, if_pos h]
  | pop r h => rw [rangeFault_pop hp hop (byteA_of_fetched hdecl hi rfl), if_pos h]
  | callSp r h => rw [rangeFault_call hp hop, if_pos h]
  | callPc r h hpc =>
    have hend : s.pc + 1 ≤ 255 := pc_operands_of_fetched hdecl hi
    obtain hpc : s.pc = 254 := by omega
    rw [rangeFault_call hp hop, if_neg h, if_pos hpc, hpc]
    rfl
  | ret h => rw [rangeFault_ret hp hop, if_pos h]

theorem rangeFault_of_ran (hdecl : s.params.operandFetch = .declared) (hi : s.fetchInstr = .ok i) (h : Ran s i t) :
    s.rangeFault = none := by
  by_cases hp : s.params.overflowPolicy = .truncate
  · exact rangeFault_truncate hp
  · replace hp := ne_truncate_iff.mp hp
    have hop := opcodeByte_of_fetched hi
    cases h with
    | push r h => rw [rangeFault_push hp hop, if_neg (h hp)]
    | pop r h => rw [rangeFault_pop hp hop (byteA_of_fetched hdecl hi rfl), if_neg (h hp)]
    | call r h =>
      obtain ⟨hsp, hpc⟩ := h hp
      rw [rangeFault_call hp hop, if_neg hsp, if_neg (by omega)]
    | ret h => rw [rangeFault_ret hp hop, if_neg (h hp)]
    | ldi | prn | cmp | jmp | jeq | jne | hlt | nop => simp [State.rangeFault, hop, Instr.opcode]

/-! ## The order -/

theorem declaredOperands_le_two {ir : Byte} {n : Nat} (h : declaredOperands ir = some n) : n ≤ 2 := by
  unfold declaredOperands at h
  split_ifs at h <;> cases h <;> decide

theorem firstFault_of_fetchFault {f : CoreFault} (hnop : s.params.nopDecoded = true) (h : FetchFault s f) :
    s.firstFault = some f := by
  cases h with
  | pastTop h => exact if_pos h
  | unknown hpc hrow =>
    obtain hnone | ⟨-, hfalse⟩ := declaredOperands_of_selectRow_none hrow
    · simp [State.firstFault, hnone, Nat.not_lt.mpr hpc]
    · rw [hnop] at hfalse
      cases hfalse
  | operand hpc _ n hn hpast =>
    simp only [State.firstFault, hn, if_neg (by omega : ¬ s.pc > 255)]
    by_cases h1 : 1 ≤ n ∧ s.pc + 1 > 255
    · rw [if_pos h1, show s.pc + 1 = 256 by omega]
    · have hle : n ≤ 2 := declaredOperands_le_two hn
      rw [if_neg h1, if_pos (by omega), show s.pc + 2 = 256 by omega]

theorem firstFault_of_raises {f : CoreFault} (hdecl : s.params.operandFetch = .declared)
    (hnop : s.params.nopDecoded = true) (h : Raises s f) : s.firstFault = some f := by
  cases h with
  | fetch h => exact firstFault_of_fetchFault hnop (fetchFault_of_error h)
  | operand hi hb =>
    rw [firstFault_of_fetched hdecl hi, hb]
    rfl
  | range hi hp hv =>
    rw [firstFault_of_fetched hdecl hi, find_illegal_of_wellFormed (wellFormed_of_outOfRange hv),
      rangeFault_of_outOfRange hdecl hi hp hv]
    rfl

theorem firstFault_of_ran (hdecl : s.params.operandFetch = .declared) (hi : s.fetchInstr = .ok i) (h : Ran s i t) :
    s.firstFault = none := by
  rw [firstFault_of_fetched hdecl hi, find_illegal_of_wellFormed (wellFormed_of_ran h), rangeFault_of_ran hdecl hi h]
  rfl

theorem opcode_eq_hlt_iff : i.opcode = 0x01 ↔ i = .hlt := by
  cases i <;> simp [Instr.opcode]

/-- Settles O13: whatever the step answers, `firstFault` is the fault it took, or none. -/
theorem stepTakesTheFirstFaultOfTheOrder : Obligations.StepTakesTheFirstFaultOfTheOrder := by
  intro s hs hdecl hnop
  obtain ⟨t, hstep⟩ := stepAlwaysAnswersANextState s
  rw [hstep]
  cases step_iff.mp hstep with
  | halted hhalted => nomatch hs.symm.trans hhalted
  | faulted _ hf =>
    rw [firstFault_of_raises hdecl hnop hf]
    refine ⟨?_, nofun⟩
    rintro f ⟨⟩
    rfl
  | ran _ hi hran =>
    rw [firstFault_of_ran hdecl hi hran, opcodeByte_of_fetched hi]
    refine ⟨nofun, fun _ => ⟨t, rfl, ?_⟩⟩
    obtain ⟨rfl, rfl⟩ | ⟨hne, hsame⟩ := runState_of_ran hran
    · exact ⟨rfl, rfl⟩
    · rwa [if_neg (mt opcode_eq_hlt_iff.mp hne)]

end Sys2Proof.Machine
end

section
/-! PROOFS. A cell that a step does not read or write does not matter to it (spec/20_memory.md section 1). -/

namespace Sys2Proof.Machine

variable {s t : State} {a : Nat} {v : Byte}

/-! ## Overwriting one cell -/

theorem poke_read_of_ne {b : Nat} (h : b ≠ a) : (s.poke a v).mem.read b = s.mem.read b :=
  (Memory.read_write s.mem a b v).trans (if_neg h)

/-- In canonical form, writes to two cells commute. -/
theorem write_comm {m : Memory} (hm : m.wf = true) {b : Nat} (ha : a < memSize) (hb : b < memSize) (hne : a ≠ b)
    (w : Byte) : (m.write a v).write b w = (m.write b w).write a v := by
  refine Memory.ext (Memory.write_wf _ _ _ (Memory.write_wf _ _ _ hm ha) hb)
    (Memory.write_wf _ _ _ (Memory.write_wf _ _ _ hm hb) ha) fun c => ?_
  simp only [Memory.read_write]
  by_cases hca : c = a
  · subst hca
    simp [hne]
  · simp [hca]

/-- Overwriting a cell commutes with what PUSH and CALL do: a write to SP, a store to another cell, a write to `pc`. -/
theorem poke_of_stored (hm : s.mem.wf = true) (ha : a < memSize) {b sp w : Byte} {n : Nat} (hne : a ≠ b.toNat) :
    (((s.setReg 7 sp).setMem (s.mem.write b.toNat w)).setPc n).poke a v =
      (((s.poke a v).setReg 7 sp).setMem ((s.poke a v).mem.write b.toNat w)).setPc n :=
  congrArg (fun m => ((s.setReg 7 sp).setMem m).setPc n) (write_comm hm ha b.isLt hne w).symm

/-! ## The fetch -/

theorem fetchOperand_poke {k : Nat} (h : s.pc + k ≠ a) : (s.poke a v).fetchOperand k = s.fetchOperand k := by
  have hread : (s.poke a v).memRead (s.pc + k) = s.memRead (s.pc + k) := by
    unfold State.memRead
    rw [poke_read_of_ne h]
  simp only [State.fetchOperand, ← hread]
  rfl

theorem fetchOperands_poke {fmt : Format} (h : a < s.pc ∨ s.pc + fmt.arity < a) (hpc : a ≠ s.pc) :
    (s.poke a v).fetchOperands fmt = s.fetchOperands fmt := by
  have hop (k : Nat) (hk : k ≤ fmt.arity) : (s.poke a v).fetchOperand k = s.fetchOperand k :=
    fetchOperand_poke (by omega)
  cases fmt with
  | z i => rfl
  | r make => simp only [State.fetchOperands, hop 1 le_rfl]
  | ri make | rr make => simp only [State.fetchOperands, hop 1 one_le_two, hop 2 le_rfl]

theorem fetchInstr_poke (hpc : a ≠ s.pc)
    (hops : ∀ n, declaredOperands s.opcodeByte = some n → a < s.pc ∨ s.pc + n < a) :
    (s.poke a v).fetchInstr = s.fetchInstr := by
  have hop : (s.poke a v).opcodeByte = s.opcodeByte := poke_read_of_ne hpc.symm
  by_cases htop : s.pc < memSize
  · cases hrow : selectRow s.params.nopDecoded s.opcodeByte with
    | none =>
      have hrow' : selectRow (s.poke a v).params.nopDecoded (s.poke a v).opcodeByte = none := hop.symm ▸ hrow
      rw [fetchInstr_unknown htop hrow, fetchInstr_unknown (s := s.poke a v) htop hrow']
      exact congrArg (fun b => Except.error (CoreFault.unknownOpcodeFault b)) hop
    | some row =>
      have hrow' : selectRow (s.poke a v).params.nopDecoded (s.poke a v).opcodeByte = some row := hop.symm ▸ hrow
      rw [fetchInstr_selected htop hrow, fetchInstr_selected (s := s.poke a v) htop hrow']
      exact fetchOperands_poke (hops _ (declaredOperands_of_selectRow hrow)) hpc
  · rw [fetchInstr_past_top (Nat.le_of_not_lt htop)]
    exact fetchInstr_past_top (Nat.le_of_not_lt htop)

/-! ## The stack instructions -/

/-- The cell `a` is none that an instruction with this opcode byte pops from or pushes to. -/
structure OffStack (s : State) (a : Nat) (op : Byte) : Prop where
  pops   : op ∈ ([0x46, 0x11] : List Byte) → a ≠ s.sp.toNat
  pushes : op ∈ ([0x45, 0x50] : List Byte) → a ≠ (s.sp - 1).toNat

theorem OffStack.poke_read {op : Byte} (h : OffStack s a op) (hop : op ∈ ([0x46, 0x11] : List Byte)) :
    (s.poke a v).mem.read s.sp.toNat = s.mem.read s.sp.toNat :=
  poke_read_of_ne (h.pops hop).symm

variable {i : Instr} (hoff : OffStack s a i.opcode)
include hoff

/-- The two that store do so in another cell, and the writes commute; the two that pop read another cell. -/
theorem ran_poke (hm : s.mem.wf = true) (ha : a < memSize) (h : Ran s i t) : Ran (s.poke a v) i (t.poke a v) := by
  cases h with
  | push r h =>
    have hne : a ≠ (s.sp - 1).toNat := hoff.pushes (by simp [Instr.opcode])
    rw [poke_of_stored hm ha hne]
    exact .push (s := s.poke a v) r h
  | call r h =>
    have hne : a ≠ (s.sp - 1).toNat := hoff.pushes (by simp [Instr.opcode])
    rw [poke_of_stored hm ha hne]
    exact .call (s := s.poke a v) r h
  | pop r h =>
    rw [← hoff.poke_read (v := v) (by simp [Instr.opcode])] at h ⊢
    exact .pop (s := s.poke a v) r h
  | ret h =>
    rw [← hoff.poke_read (v := v) (by simp [Instr.opcode])]
    exact .ret (s := s.poke a v) h
  | ldi r imm => exact .ldi r imm
  | prn r => exact .prn r
  | cmp a b => exact .cmp a b
  | jmp r => exact .jmp r
  | jeq r => exact .jeq r
  | jne r => exact .jne r
  | hlt => exact .hlt
  | nop => exact .nop

theorem outOfRange_poke {w : Int} (h : OutOfRange s i w) : OutOfRange (s.poke a v) i w := by
  cases h with
  | push r h => exact .push r h
  | pop r h =>
    rw [← hoff.poke_read (v := v) (by simp [Instr.opcode])] at h
    exact .pop (s := s.poke a v) r h
  | callSp r h => exact .callSp r h
  | callPc r h hpc => exact .callPc (s := s.poke a v) r h hpc
  | ret h => exact .ret h

end Sys2Proof.Machine
end

section
/-! PROOFS. Two states that a step treats alike: with a cell overwritten, and with the other overflow policy. -/

namespace Sys2Proof.Machine

/-- Settles O51: the overwritten state fetches the same instruction, which runs, or faults, in the same way. -/
theorem unreadCellDoesNotMatter : Obligations.UnreadCellDoesNotMatter := by
  intro s t a v hm ha hpc hops hpops hpushes hstep
  have hfetch : (s.poke a v).fetchInstr = s.fetchInstr := fetchInstr_poke hpc hops
  have hoff (i : Instr) (hi : s.fetchInstr = .ok i) : OffStack s a i.opcode := by
    rw [← opcodeByte_of_fetched hi]
    exact ⟨hpops, hpushes⟩
  refine step_iff.mpr ?_
  cases step_iff.mp hstep with
  | halted hs => exact .halted hs
  | faulted hs hf =>
    refine .faulted (s := s.poke a v) hs ?_
    cases hf with
    | fetch h => exact .fetch (hfetch.trans h)
    | operand hi hb => exact .operand (hfetch.trans hi) hb
    | range hi hp hv => exact .range (hfetch.trans hi) hp (outOfRange_poke (hoff _ hi) hv)
  | ran hs hi hran => exact .ran (s := s.poke a v) hs (hfetch.trans hi) (ran_poke (hoff _ hi) hm (Nat.lt_succ_of_le ha) hran)

/-! ## The overflow policy -/

/-- `truncate` lifts the condition on which a stack instruction runs through, and changes no result. -/
theorem ran_withPolicy_truncate {s t : State} {i : Instr} (h : Ran s i t) :
    Ran (s.withPolicy .truncate) i (t.withPolicy .truncate) := by
  have htruncate : (s.withPolicy .truncate).params.overflowPolicy ≠ .validate := nofun
  cases h with
  | push r => exact .push r fun hp => absurd hp htruncate
  | pop r => exact .pop (s := s.withPolicy .truncate) r fun hp => absurd hp htruncate
  | call r => exact .call r fun hp => absurd hp htruncate
  | ret => exact .ret (s := s.withPolicy .truncate) fun hp => absurd hp htruncate
  | ldi r imm => exact .ldi r imm
  | prn r => exact .prn r
  | cmp a b => exact .cmp a b
  | jmp r => exact .jmp r
  | jeq r => exact .jeq r
  | jne r => exact .jne r
  | hlt => exact .hlt
  | nop => exact .nop

/-- Settles O52: the fetch does not ask for the policy, and the instructions that run through do so under `truncate` too. -/
theorem policiesDifferOnlyInRangeFaults : Obligations.PoliciesDifferOnlyInRangeFaults := by
  intro s t hstep hcause
  refine step_iff.mpr ?_
  cases step_iff.mp hstep with
  | halted hs => exact .halted hs
  | faulted hs hf =>
    refine .faulted (s := s.withPolicy .truncate) hs ?_
    cases hf with
    | fetch h => exact .fetch h
    | operand hi hb => exact .operand hi hb
    | range => exact absurd rfl (hcause _)
  | ran hs hi hran =>
    have hran' := ran_withPolicy_truncate hran
    exact .ran (s := s.withPolicy .truncate) hs hi hran'

end Sys2Proof.Machine
end

section
/-! PROOFS. The fit of an integer to a byte (spec/00_scope.md R9), and the stack pointer's decrement and increment (R14). -/

namespace Sys2Proof.Machine

theorem toNat_ofInt_byte (v : Int) : ((BitVec.ofInt 8 v).toNat : Int) = v % 256 := by
  have hnonneg : 0 ≤ v % 256 := Int.emod_nonneg v (by decide)
  simpa [BitVec.toNat_ofInt] using hnonneg

/-- Settles O37: a byte in range is its own residue mod 256. -/
theorem fitKeepsFaultsOrWraps : Obligations.FitKeepsFaultsOrWraps := by
  intro v
  constructor
  · intro h0 h255 policy
    refine ⟨_, fit8_ok (.inl ⟨h0, h255⟩), ?_⟩
    rw [toNat_ofInt_byte, Int.emod_eq_of_lt h0 (by omega)]
  · intro hout
    exact ⟨fit8_error hout, _, fit8_ok (.inr rfl), toNat_ofInt_byte v⟩

theorem toNat_sub_one (sp : Byte) : (sp - 1).toNat = (sp.toNat + 255) % 256 := by
  rw [BitVec.toNat_sub, Nat.add_comm]
  rfl

/-- Decremented from another value than 0, SP can be incremented again (R164). -/
theorem sub_one_ne_top {sp : Byte} (h : sp ≠ 0) : sp - 1 ≠ 0xFF := by
  intro htop
  apply h
  calc sp = sp - 1 + 1 := (BitVec.sub_add_cancel sp 1).symm
    _ = 0 := by rw [htop]; rfl

/-- Settles O55: one clause for each kind of cause. -/
theorem haltCauseCodes : Obligations.HaltCauseCodes := ⟨rfl, rfl, fun _ _ _ => ⟨rfl, rfl, rfl, rfl⟩⟩

end Sys2Proof.Machine
end

section
/-! PROOFS. The stack instructions at the step (spec/44_stack.md, spec/45_call_return.md), HLT and NOP
(spec/46_control.md). -/

namespace Sys2Proof.Machine

variable {s : State}

/-! ## The step by the declared operands -/

/-- An instruction of no operand is fetched at 255 too. -/
theorem step_of_noOperand {i : Instr} (hs : s.status = .running) (hpc : s.pc ≤ 255) (hop : s.opcodeByte = i.opcode)
    (hops : i.operands = []) (hnop : i = .nop → s.params.nopDecoded = true) : step s = exec i s :=
  step_fetched hs (fetchInstr_eq_ok_iff.mpr ⟨Nat.lt_succ_of_le hpc, hop, hops ▸ fetchesOperands_nil, hnop⟩)

/-- An instruction of one register operand, by what it answers on each register: the operand is fetched, then validated. -/
theorem step_of_register {op : Byte} {make : Byte → Instr} {result : RegIdx → State} (hs : s.status = .running)
    (hdecl : s.params.operandFetch = .declared) (hpc : s.pc ≤ 255) (hop : s.opcodeByte = op)
    (hrow : selectRow s.params.nopDecoded op = some ⟨op, .r make⟩) (hreg : ∀ b, (make b).regOperands = [b])
    (hexec : s.pc < 255 → ∀ r, exec (make (regByte r)) s = .next (result r)) :
    step s = .next (
      if s.pc = 255 then s.faulted (.memoryBoundsError 256)
      else if h : s.byteA.toNat < 8 then result ⟨s.byteA.toNat, h⟩
      else s.faulted (.registerBoundsError s.byteA)) := by
  subst hop
  rw [step_of_oneOperand hs hdecl hpc hrow rfl]
  split_ifs with htop hlegal
  · rfl
  · rw [congrArg make (eq_regByte hlegal)]
    exact hexec (by omega) _
  · exact illegalRegisterOperandHalts _ _ _ (by simp [hreg, Nat.le_of_not_lt hlegal])

/-- The operand byte 7 names R7. -/
theorem register_eq_seven_iff {b : Byte} (h : b.toNat < 8) : (⟨b.toNat, h⟩ : RegIdx) = 7 ↔ b = 7 := by
  rw [← regByte_eq_seven_iff, ← eq_regByte h]
  exact Iff.rfl

/-! ## The stack instructions by the overflow policy -/

theorem exec_push_policy (s : State) (r : RegIdx) : exec (.push (regByte r)) s = .next (
    if s.params.overflowPolicy = .validate ∧ s.sp = 0 then s.faulted (.valueRangeFault (-1))
    else ((s.setReg 7 (s.sp - 1)).setMem
      (s.mem.write (s.sp - 1).toNat (if r = 7 then s.sp - 1 else s.reg r))).setPc (s.pc + 2)) := by
  split
  next h => exact exec_of_outOfRange h.1 (.push r h.2)
  next h => exact exec_push_ok s r (not_and.mp h)

theorem exec_pop_policy (s : State) (r : RegIdx) : exec (.pop (regByte r)) s = .next (
    if s.params.overflowPolicy = .validate ∧ (if r = 7 then s.mem.read s.sp.toNat else s.sp) = 0xFF then
      s.faulted (.valueRangeFault 256)
    else ((s.setReg r (s.mem.read s.sp.toNat)).setReg 7
      ((if r = 7 then s.mem.read s.sp.toNat else s.sp) + 1)).setPc (s.pc + 2)) := by
  by_cases h : s.params.overflowPolicy = .validate ∧ (if r = 7 then s.mem.read s.sp.toNat else s.sp) = 0xFF
  · rw [if_pos h]
    exact exec_of_outOfRange h.1 (.pop r h.2)
  · rw [if_neg h]
    exact exec_pop_ok s r (not_and.mp h)

/-- CALL where its operand byte can be in memory. -/
theorem exec_call_policy (hpc : s.pc < 255) (r : RegIdx) : exec (.call (regByte r)) s = .next (
    if s.params.overflowPolicy = .validate ∧ s.sp = 0 then s.faulted (.valueRangeFault (-1))
    else if s.params.overflowPolicy = .validate ∧ s.pc = 254 then s.faulted (.valueRangeFault 256)
    else ((s.setReg 7 (s.sp - 1)).setMem
      (s.mem.write (s.sp - 1).toNat (BitVec.ofNat 8 (s.pc + 2)))).setPc (if r = 7 then s.sp - 1 else s.reg r).toNat) := by
  split
  next hsp => exact exec_of_outOfRange hsp.1 (.callSp r hsp.2)
  next hsp =>
    split
    next hra =>
      obtain ⟨hp, htop⟩ := hra
      have hrange := OutOfRange.callPc r (not_and.mp hsp hp) htop.ge
      rw [htop] at hrange
      exact exec_of_outOfRange hp hrange
    next hra =>
      refine exec_call_ok s r fun hp => ⟨not_and.mp hsp hp, ?_⟩
      have hne := not_and.mp hra hp
      omega

theorem exec_ret_policy (s : State) : exec .ret s = .next (
    if s.params.overflowPolicy = .validate ∧ s.sp = 0xFF then s.faulted (.valueRangeFault 256)
    else (s.setReg 7 (s.sp + 1)).setPc (s.mem.read s.sp.toNat).toNat) := by
  split
  next h => exact exec_of_outOfRange h.1 (.ret h.2)
  next h => exact exec_ret_ok s (not_and.mp h)

/-- Settles O21: the byte is the pattern of PUSH's row. -/
theorem pushStep : Obligations.PushStep := by
  intro s hs hdecl hpc hop
  rw [step_of_register hs hdecl hpc hop rfl (fun _ => rfl) fun _ => exec_push_policy s]
  simp only [register_eq_seven_iff]
  rfl

/-- Settles O22: the byte is the pattern of POP's row. -/
theorem popStep : Obligations.PopStep := by
  intro s hs hdecl hpc hop
  rw [step_of_register hs hdecl hpc hop rfl (fun _ => rfl) fun _ => exec_pop_policy s]
  simp only [register_eq_seven_iff]
  rfl

/-- Settles O23: the byte is the pattern of CALL's row, whose operand is past the top at 255. -/
theorem callStep : Obligations.CallStep := by
  intro s hs hdecl hpc hop
  rw [step_of_register hs hdecl hpc hop rfl (fun _ => rfl) exec_call_policy]
  simp only [register_eq_seven_iff, apply_ite BitVec.toNat]
  rfl

/-- Settles O24: RET declares no operand. -/
theorem retStep : Obligations.RetStep := by
  intro s hs hpc hop
  rw [step_of_noOperand (i := .ret) hs hpc hop rfl nofun, exec_ret_policy]
  rfl

/-- Settles O35: both meanings are one update of the state. -/
theorem controlCompletes : Obligations.ControlCompletes := by
  intro s
  exact ⟨exec_hlt s, exec_nop s⟩

/-- Settles O25: HLT declares no operand. -/
theorem hltStep : Obligations.HltStep := by
  intro s hs hpc hop
  exact (step_of_noOperand (i := .hlt) hs hpc hop rfl nofun).trans (exec_hlt s)

/-- Settles O26: NOP declares no operand. -/
theorem nopStep : Obligations.NopStep := by
  intro s hs hnop hpc hop
  exact (step_of_noOperand (i := .nop) hs hpc hop rfl fun _ => hnop).trans (exec_nop s)

end Sys2Proof.Machine
end

section
/-! PROOFS. Each instruction's result and frame, in every state in which it completes. -/

namespace Sys2Proof.Machine

/-! ## Frames -/

namespace Kept

variable {regs : List RegIdx} {cells : List Nat} {s t : State}

theorem refl (regs : List RegIdx) (cells : List Nat) (s : State) : Kept regs cells s s :=
  ⟨fun _ _ => rfl, fun _ _ => rfl, rfl⟩

theorem setReg {i : RegIdx} (h : Kept regs cells s t) (hi : i ∈ regs) (v : Byte) : Kept regs cells s (t.setReg i v) where
  regs j hj := by rw [reg_setReg, if_neg (ne_of_mem_of_not_mem hi hj).symm, h.regs j hj]
  cells := h.cells
  params := h.params

theorem store {a : Nat} (h : Kept regs cells s t) (ha : a ∈ cells) (v : Byte) :
    Kept regs cells s (t.setMem (t.mem.write a v)) where
  regs := h.regs
  cells b hb := by rw [setMem_mem, Memory.read_write, if_neg (ne_of_mem_of_not_mem ha hb).symm, h.cells b hb]
  params := h.params

theorem setPc (h : Kept regs cells s t) (n : Nat) : Kept regs cells s (t.setPc n) := ⟨h.regs, h.cells, h.params⟩

theorem setFl (h : Kept regs cells s t) (v : Byte) : Kept regs cells s (t.setFl v) := ⟨h.regs, h.cells, h.params⟩

theorem emit (h : Kept regs cells s t) (v : Byte) : Kept regs cells s (t.emit v) := ⟨h.regs, h.cells, h.params⟩

end Kept

theorem sp_of_setReg_seven (s : State) (v : Byte) : (s.setReg 7 v).sp = v := by
  simp

/-! ## Instructions that complete in every state -/

/-- Settles O27: besides `pc`, LDI writes the one register that its frame leaves out. -/
theorem ldiCompletes : Obligations.LdiCompletes := by
  intro r imm s
  have hframe : Kept [r] [] s ((s.setReg r imm).setPc (s.pc + 3)) :=
    ((Kept.refl _ _ s).setReg (List.mem_singleton_self r) imm).setPc _
  exact ⟨_, exec_ldi s r imm, by simp, rfl, hframe, rfl, rfl, rfl, rfl⟩

/-- Settles O28: PRN writes `out` and `pc`, which no frame speaks of. -/
theorem prnCompletes : Obligations.PrnCompletes := by
  intro r s
  exact ⟨_, exec_prn s r, rfl, rfl, ((Kept.refl _ _ s).emit _).setPc _, rfl, rfl, rfl⟩

/-- The compare unit sets the one bit of its outcome (R140), and no bit past bit 2. -/
theorem compare_bits (a b : Byte) :
    (compare a b).getLsbD 0 = decide (a = b) ∧ (compare a b).getLsbD 1 = decide (b.toNat < a.toNat) ∧
      (compare a b).getLsbD 2 = decide (a.toNat < b.toNat) ∧ (compare a b).toNat < 8 := by
  obtain hlt | heq | hgt := Nat.lt_trichotomy a.toNat b.toNat
  · have hne : a ≠ b := fun e => hlt.ne (congrArg _ e)
    rw [compare_of_lt hlt]
    simp [hne, hlt, hlt.le]
  · obtain rfl := BitVec.eq_of_toNat_eq heq
    rw [compare_self]
    simp
  · have hne : a ≠ b := fun e => hgt.ne' (congrArg _ e)
    rw [compare_of_gt hgt]
    simp [hne, hgt, hgt.le]

/-- Settles O29: the new FL is the output of the compare unit. -/
theorem cmpCompletes : Obligations.CmpCompletes := by
  intro a b s
  obtain ⟨hE, hG, hL, hrest⟩ := compare_bits (s.reg a) (s.reg b)
  exact ⟨_, exec_cmp s a b, hE, hG, hL, hrest, rfl, ((Kept.refl _ _ s).setFl _).setPc _, rfl, rfl, rfl⟩

/-- Settles O30: E chooses the branch of JEQ and the other branch of JNE. -/
theorem jumpsComplete : Obligations.JumpsComplete := by
  intro r s
  refine ⟨exec_jmp s r, fun hE => ?_, fun hE => ?_⟩
  · rw [exec_jeq, exec_jne, hE]
    exact ⟨rfl, rfl⟩
  · rw [exec_jeq, exec_jne, hE]
    exact ⟨rfl, rfl⟩

/-! ## Stack instructions -/

/-- Settles O31: the store is at the decremented SP, so the frame leaves out that cell alone. -/
theorem pushCompletes : Obligations.PushCompletes := by
  intro r s h
  have hframe := (((Kept.refl [7] [(s.sp - 1).toNat] s).setReg (List.mem_singleton_self 7) (s.sp - 1)).store
    (List.mem_singleton_self _) (if r = 7 then s.sp - 1 else s.reg r)).setPc (s.pc + 2)
  exact ⟨_, _, spDec_ok h, toNat_sub_one s.sp, exec_push_ok s r h, sp_of_setReg_seven s _, by simp, rfl, hframe, rfl, rfl,
    rfl, rfl⟩

/-- Settles O32: the popped byte is written first, so for R7 it is what the increment reads. -/
theorem popCompletes : Obligations.PopCompletes := by
  intro r s h
  have hr : r ∈ [r, 7] := List.mem_cons_self
  have h7 : 7 ∈ [r, 7] := List.mem_cons_of_mem _ (List.mem_singleton_self 7)
  have hframe := (((Kept.refl [r, 7] [] s).setReg hr (s.mem.read s.sp.toNat)).setReg h7
    ((if r = 7 then s.mem.read s.sp.toNat else s.sp) + 1)).setPc (s.pc + 2)
  refine ⟨_, exec_pop_ok s r h, fun hr => ?_, fun hr => ?_, rfl, hframe, rfl, rfl, rfl, rfl⟩
  · simp [hr]
  · simp [hr]

/-- Settles O33: the store is at the decremented SP, and its byte is the return address mod 256. -/
theorem callCompletes : Obligations.CallCompletes := by
  intro r s h
  have hframe := (((Kept.refl [7] [(s.sp - 1).toNat] s).setReg (List.mem_singleton_self 7) (s.sp - 1)).store
    (List.mem_singleton_self _) (BitVec.ofNat 8 (s.pc + 2))).setPc (if r = 7 then s.sp - 1 else s.reg r).toNat
  exact ⟨_, _, spDec_ok fun hp => (h hp).1, toNat_sub_one s.sp, exec_call_ok s r h, sp_of_setReg_seven s _, by simp, rfl,
    hframe, rfl, rfl, rfl, rfl⟩

/-- Settles O34: the target is read at the SP before the increment. -/
theorem retCompletes : Obligations.RetCompletes := by
  intro s h
  have hframe := ((Kept.refl [7] [] s).setReg (List.mem_singleton_self 7) (s.sp + 1)).setPc (s.mem.read s.sp.toNat).toNat
  exact ⟨_, exec_ret_ok s h, rfl, sp_of_setReg_seven s _, hframe, rfl, rfl, rfl, rfl⟩

/-! ## Round trips -/

/-- Settles O50: the byte that PUSH stores lies at the `pc` it leaves. -/
theorem pushedByteIsFetchedNext : Obligations.PushedByteIsFetchedNext := by
  intro r s hr hsp hnext
  obtain ⟨sp, t, -, hcell, hpush, -, hbyte, hpc, -⟩ := pushCompletes r s fun _ => hsp
  have hlt := s.sp.isLt
  have hstored : sp.toNat = t.pc := by omega
  rw [hstored, if_neg hr] at hbyte
  exact ⟨t, hpush, hbyte ▸ memRead_ok (hstored ▸ sp.isLt)⟩

/-- Settles O53: POP reads the cell that PUSH stored to, and its increment of SP undoes the decrement. -/
theorem pushThenPopRoundTrips : Obligations.PushThenPopRoundTrips := by
  intro q r s hsp hpopped
  obtain ⟨sp, t, hdec, -, hpush, htsp, hbyte, -⟩ := pushCompletes q s fun _ => hsp
  obtain rfl : s.sp - 1 = sp := Except.ok.inj ((spDec_ok fun _ => hsp).symm.trans hdec)
  rw [← htsp] at hbyte
  obtain ⟨u, hpop, hother, hseven, -⟩ := popCompletes r t fun _ => by
    split
    next hr => exact hbyte ▸ htsp ▸ hpopped hr
    next => exact htsp ▸ sub_one_ne_top hsp
  have hback : t.sp + 1 = s.sp := by rw [htsp, BitVec.sub_add_cancel]
  refine ⟨t, u, hpush, hpop, fun hq hr => ?_, fun hq hr => ?_, fun hr => ?_⟩
  · obtain ⟨hreg, husp⟩ := hother hr
    exact ⟨hreg.trans (hbyte.trans (if_neg hq)), husp.trans hback⟩
  · obtain ⟨hreg, husp⟩ := hother hr
    exact ⟨hreg.trans (hbyte.trans ((if_pos hq).trans htsp)), husp.trans hback⟩
  · rw [hseven hr, hbyte, htsp]

/-- Settles O54: RET reads the cell that CALL stored to, and its increment of SP undoes the decrement. -/
theorem callThenReturnRoundTrips : Obligations.CallThenReturnRoundTrips := by
  intro r s hr hpc hsp
  obtain ⟨sp, t, hdec, -, hcall, htsp, hra, htarget, -⟩ := callCompletes r s fun _ => ⟨hsp, hpc⟩
  obtain rfl : s.sp - 1 = sp := Except.ok.inj ((spDec_ok fun _ => hsp).symm.trans hdec)
  rw [← htsp, Nat.mod_eq_of_lt (by omega)] at hra
  refine ⟨t, hcall, by rw [htarget, if_neg hr], hra, fun u husp hcell => ?_⟩
  rw [htsp] at husp
  obtain ⟨w, hret, hwpc, hwsp, -⟩ := retCompletes u fun _ => husp ▸ sub_one_ne_top hsp
  refine ⟨w, hret, by rw [hwpc, hcell, hra], by rw [hwsp, husp, BitVec.sub_add_cancel]⟩

end Sys2Proof.Machine
end
